-- ==== Sys2Proof/Word.lean ====
section
/-! DEFINITION. The one data type of the machine: the Word (rule R5). -/

namespace Sys2Proof

/-- A Word is a signed integer, "the set of all mathematical integers" (R5, decision D1): memory cells, parameters,
port values and addresses are all Words. A finite `WORD_BITS` (R4) narrows no type: it is a parameter of the run, held
in the state, that makes Add and Multiply raise `ArithmeticOverflow` (R125). -/
abbrev Word := Int

end Sys2Proof
end

