-- ==== Sys2Proof/Syntax.lean ====
section
/-! DEFINITION. Instructions as the decoder yields them: an operation and one addressing mode per declared parameter
(rules R2, R50 to R53). Parameter Words are not part of an instruction: they are fetched while it executes (R60, R71). -/

namespace Sys2Proof

/-- The two addressing modes (R56): digit 0 is Position, digit 1 is Immediate. -/
inductive Mode where
  /-- The parameter is the address of the value. -/
  | position
  /-- The parameter is the value itself. -/
  | immediate
deriving DecidableEq, Repr

/-- The operation tag: the nine entries of the closed catalog (R2, R52). -/
inductive Op where
  | add
  | multiply
  | input
  | output
  | jumpIfTrue
  | jumpIfFalse
  | lessThan
  | equals
  | halt
deriving DecidableEq, Repr

/-- A decoded instruction (R53): one constructor per row of spec/opcode_table.json, with exactly one mode per declared
parameter, in parameter order. The mode of a write-address parameter is decoded and kept, and is never applied (R58). -/
inductive Instr where
  /-- Format F2R1W, rule R81. -/
  | add (m1 m2 m3 : Mode)
  /-- Format F2R1W, rule R82. -/
  | multiply (m1 m2 m3 : Mode)
  /-- Format F1W, rule R85. -/
  | input (m1 : Mode)
  /-- Format F1R, rule R86. -/
  | output (m1 : Mode)
  /-- Format F2R, rule R100. -/
  | jumpIfTrue (m1 m2 : Mode)
  /-- Format F2R, rule R101. -/
  | jumpIfFalse (m1 m2 : Mode)
  /-- Format F2R1W, rule R105. -/
  | lessThan (m1 m2 m3 : Mode)
  /-- Format F2R1W, rule R106. -/
  | equals (m1 m2 m3 : Mode)
  /-- Format F0, rule R110. -/
  | halt
deriving DecidableEq, Repr

/-- The two ways `Decode` fails (R53), each with what the raise records (R121, R122). -/
inductive DecodeError where
  /-- The Word is negative or its two low digits are no operation code (R54, R55). -/
  | invalidOpcode (w : Word)
  /-- Mode digit of parameter `i` (1, 2 or 3) is 2 to 9 (R57). -/
  | invalidAddressingMode (w : Word) (i : Nat)
deriving DecidableEq, Repr

end Sys2Proof
end

