-- ==== Sys2Proof/WellFormed.lean ====
section
/-! DEFINITION. Well-formedness of an instruction. A term of `Instr` carries one mode per declared parameter by its
type, so every term is an instruction the decoder can yield and nothing is left to check for that. What is checked here
is the LISTING form of rule R62, the strict form of a destination's mode digit. -/

namespace Sys2Proof

/-- The instruction is one the listing notation can write: "The notation always encodes the write-address parameter's
mode digit as 0" (R62). Every other instruction is legal too and executes in the same way (R58). -/
def Instr.listingForm : Instr → Bool
  | .add _ _ m3 => m3 == .position
  | .multiply _ _ m3 => m3 == .position
  | .input m1 => m1 == .position
  | .output _ => true
  | .jumpIfTrue _ _ => true
  | .jumpIfFalse _ _ => true
  | .lessThan _ _ m3 => m3 == .position
  | .equals _ _ m3 => m3 == .position
  | .halt => true

end Sys2Proof
end

