-- ==== Sys2Proof/Decode.lean ====
section
/-! DEFINITION. The instruction decoder (rules R50 to R65): operation table, decimal digits, `Decode`, the encoder
written from the same table, and the host's view of the decoder. -/

namespace Sys2Proof

/-- The operation table of R52, as data: code and operation. The codes 4 to 8 are decision D2 of the spec. -/
def opTable : List (Nat × Op) :=
  [(1, .add), (2, .multiply), (3, .input), (4, .output), (5, .jumpIfTrue), (6, .jumpIfFalse), (7, .lessThan),
   (8, .equals), (99, .halt)]

/-- The operation an operation code selects (R52); `none` for the illegal codes 0 and 9 to 98 (R55). -/
def opOfCode (c : Nat) : Option Op := (opTable.find? fun r => r.1 == c).map Prod.snd

/-- The operation code of an operation, read from the same table. -/
def codeOf (o : Op) : Nat := ((opTable.find? fun r => r.2 == o).map Prod.fst).getD 0

/-- `param_count` (R50, R53: 3, 3, 1, 1, 2, 2, 3, 3, 0). -/
def Op.paramCount : Op → Nat
  | .add => 3
  | .multiply => 3
  | .input => 1
  | .output => 1
  | .jumpIfTrue => 2
  | .jumpIfFalse => 2
  | .lessThan => 3
  | .equals => 3
  | .halt => 0

/-- The operation of an instruction. -/
def Instr.op : Instr → Op
  | .add _ _ _ => .add
  | .multiply _ _ _ => .multiply
  | .input _ => .input
  | .output _ => .output
  | .jumpIfTrue _ _ => .jumpIfTrue
  | .jumpIfFalse _ _ => .jumpIfFalse
  | .lessThan _ _ _ => .lessThan
  | .equals _ _ _ => .equals
  | .halt => .halt

/-- The mode list of an instruction, parameter 1 first, the write-address parameter's entry included (R58). -/
def Instr.modes : Instr → List Mode
  | .add m1 m2 m3 => [m1, m2, m3]
  | .multiply m1 m2 m3 => [m1, m2, m3]
  | .input m1 => [m1]
  | .output m1 => [m1]
  | .jumpIfTrue m1 m2 => [m1, m2]
  | .jumpIfFalse m1 m2 => [m1, m2]
  | .lessThan m1 m2 m3 => [m1, m2, m3]
  | .equals m1 m2 m3 => [m1, m2, m3]
  | .halt => []

/-- Length in Words: `1 + param_count(operation)` (R64). -/
def Instr.length (i : Instr) : Nat := 1 + i.op.paramCount

/-- `digit_k` of a non-negative Word: `(w div 10^k) mod 10` (spec/00 section 5.2). -/
def digit (k w : Nat) : Nat := w / 10 ^ k % 10

/-- Mode digits (R56, R57): 0 Position, 1 Immediate, 2 to 9 illegal. -/
def modeOfDigit : Nat → Option Mode
  | 0 => some .position
  | 1 => some .immediate
  | _ => none

/-- The digit of a mode (R56). -/
def digitOfMode : Mode → Nat
  | .position => 0
  | .immediate => 1

/-- The mode of parameter `i`: `digit_(i+1)`, checked (R53, R57). -/
def decodeMode (w i : Nat) : Except DecodeError Mode :=
  match modeOfDigit (digit (i + 1) w) with
  | some m => .ok m
  | none => .error (.invalidAddressingMode w i)

/-- One declared parameter: its mode digit is checked (R53). -/
def decodeModes1 (mk : Mode → Instr) (w : Nat) : Except DecodeError Instr := do
  let m1 ← decodeMode w 1
  return mk m1

/-- Two declared parameters: their mode digits are checked in increasing index (R53). -/
def decodeModes2 (mk : Mode → Mode → Instr) (w : Nat) : Except DecodeError Instr := do
  let m1 ← decodeMode w 1
  let m2 ← decodeMode w 2
  return mk m1 m2

/-- Three declared parameters: their mode digits are checked in increasing index (R53). -/
def decodeModes3 (mk : Mode → Mode → Mode → Instr) (w : Nat) : Except DecodeError Instr := do
  let m1 ← decodeMode w 1
  let m2 ← decodeMode w 2
  let m3 ← decodeMode w 3
  return mk m1 m2 m3

/-- The loop of R53 once the operation is known: only the digits of declared parameters are decoded (R59). -/
def decodeOp (o : Op) (w : Nat) : Except DecodeError Instr :=
  match o with
  | .add => decodeModes3 .add w
  | .multiply => decodeModes3 .multiply w
  | .input => decodeModes1 .input w
  | .output => decodeModes1 .output w
  | .jumpIfTrue => decodeModes2 .jumpIfTrue w
  | .jumpIfFalse => decodeModes2 .jumpIfFalse w
  | .lessThan => decodeModes3 .lessThan w
  | .equals => decodeModes3 .equals w
  | .halt => .ok .halt

/-- `Decode(w)` (R53): total, a function of the Word alone. A negative Word (R54) and an unknown code (R55) are
`InvalidOpcode`, before any mode digit is looked at. -/
def decode (w : Int) : Except DecodeError Instr :=
  if w < 0 then .error (.invalidOpcode w)
  else
    match opOfCode (w.toNat % 100) with
    | none => .error (.invalidOpcode w)
    | some o => decodeOp o w.toNat

/-- The mode digits of a mode list as a number, parameter 1 least significant (R51). -/
def modesValue : List Mode → Nat
  | [] => 0
  | m :: ms => digitOfMode m + 10 * modesValue ms

/-- The instruction word of an instruction, `... m3 m2 m1 c c` (R51), every undecoded digit 0. -/
def encodeNat (i : Instr) : Nat := codeOf i.op + 100 * modesValue i.modes

/-- The instruction word of an instruction as a Word. Its parameter Words follow it unencoded (R60). -/
def encode (i : Instr) : Word := encodeNat i

/-- The Words of an instruction with its parameters (R50): the instruction word, then one Word per parameter. -/
def instrWords (i : Instr) (params : List Word) : List Word := encode i :: params

/-- The stricter check R59 allows: the Word decodes and has no non-zero undecoded digit. -/
def strictWord (w : Word) : Bool :=
  match decode w with
  | .ok i => encode i == w
  | .error _ => false

/-- The instruction the decoder reads from a table word. The table is decimal and a Word has no width, so the number
`w` IS the instruction word and `nbits` says nothing; the operand Words, all 0, are no part of the decoded instruction. -/
def decodeTableWord (_nbits w : Nat) : Option Instr :=
  match decode w with
  | .ok i => some i
  | .error _ => none

end Sys2Proof
end

