-- ==== Sys2Proof/Config.lean ====
section
/-! DEFINITION. The values this hardware fixes for the open parameters of rule R4, where the spec names a default.
The parameters themselves are chosen by the caller at construction (R7, R154), so each is held in the state; nothing in
this hardware is left to a free value (spec/93, part 1: every open behaviour is a fault, a wait or a parameter). -/

namespace Sys2Proof.Config

/-- The label of the instruction-set level (R2, decision D2). No rule reads it. -/
def isaLevel : String := "Intcode-9op-2mode"

/-- `WORD_BITS`: the width of a Word, `none` for unbounded, the spec's default (R4, R5, decision D1). -/
def wordBits : Option Nat := none

/-- `SINK_CAPACITY`: how many values a queue sink holds before it delays a write, `none` for unbounded, the spec's
default (R4, R90, decision D14). -/
def sinkCapacity : Option Nat := none

end Sys2Proof.Config
end

