-- ==== Sys2Proof/Machine/State.lean ====
section
/-! DEFINITION. The state of one interpreter with its port and the queues the port is wired to (spec/10, spec/42), the
reasons a step can stop, and the state after reset (R22, R151). -/

namespace Sys2Proof.Machine

/-- `run_state` (R14). Halted and Faulted are absorbing. -/
inductive RunState where
  | running
  | halted
  | faulted
deriving DecidableEq, Repr

/-- The error kinds (R120). The fifth arises only with a finite `WORD_BITS` (R125). -/
inductive ErrorKind where
  | invalidOpcode
  | invalidAddressingMode
  | memoryOutOfBounds
  | inputExhausted
  | arithmeticOverflow
deriving DecidableEq, Repr

/-- The tag of an invalid address: which access computed it (R123). -/
inductive AccessTag where
  | fetch
  | read
  | write
  | jump
deriving DecidableEq, Repr

/-- `fault_info` (R16, table of R120): the offending Word and what it is. -/
inductive FaultInfo where
  /-- `InvalidOpcode`: the instruction word (R121). -/
  | instrWord (w : Word)
  /-- `InvalidAddressingMode`: the instruction word and the parameter index (R122). -/
  | instrParam (w : Word) (i : Nat)
  /-- `MemoryOutOfBounds`: the offending address and its tag (R123). -/
  | address (a : Word) (tag : AccessTag)
deriving DecidableEq, Repr

/-- What `raise K(info)` carries (R127). Transient: never stored as such. -/
structure Exn where
  kind : ErrorKind
  info : Option FaultInfo
deriving DecidableEq, Repr

/-- The memory array `mem` (R11, R30): the list of its cells, address 0 first. Its length is `MEM_LEN`. -/
abbrev Memory := List Word

/-- A queue (R94, R96): its values, oldest first, and its capacity, `none` for unbounded (`SINK_CAPACITY`, R4). -/
structure Queue where
  items : List Word
  capacity : Option Nat
deriving DecidableEq, Repr

/-- What backs `IO.read` (R92 to R94). -/
inductive Source where
  /-- The constant source: every read answers `c` (R92). -/
  | constant (c : Word)
  /-- The list source: the values not yet consumed (R93). -/
  | list (remaining : List Word)
  /-- The queue source: the number of the queue this interpreter reads (R94). -/
  | queue (q : Nat)
deriving DecidableEq, Repr

/-- What backs `IO.write` (R95, R96). -/
inductive Sink where
  /-- The log sink: the values written, oldest first (R95). -/
  | log (out : List Word)
  /-- The queue sink: the number of the queue this interpreter writes (R96). -/
  | queue (q : Nat)
deriving DecidableEq, Repr

/-- The overflow sink (R96, R141): a log sink (R95, decision D22), and how far the caller has taken from it (R7). A take
reads the oldest value not yet taken and deletes nothing: the record of what was written stays. -/
structure Overflow where
  /-- Every value handed to the sink, oldest first. -/
  log : List Word
  /-- How many of them the caller has taken. -/
  taken : Nat
deriving DecidableEq, Repr

/-- One interpreter: the five entries of spec/10 section 1 (R24), its Word width, and the private part of its port's
environment. Nothing here is shared with another interpreter (R11, R24). -/
structure Interp where
  /-- `mem[0 .. MEM_LEN-1]` (R11). -/
  mem : Memory
  /-- The program counter: the address of the next instruction word (R12). -/
  pc : Nat
  /-- R14. -/
  runState : RunState
  /-- R15. -/
  faultCause : Option ErrorKind
  /-- R16. -/
  faultInfo : Option FaultInfo
  /-- `WORD_BITS` (R4), `none` for unbounded; no instruction changes it. -/
  wordBits : Option Nat
  /-- `SOURCE` (R4, R87). -/
  source : Source
  /-- `SINK` (R4, R87). -/
  sink : Sink
  /-- The second sink of a mirrored sink (R96, R141), `none` when the sink is not mirrored. -/
  mirror : Option Overflow
deriving DecidableEq, Repr

/-- The state a step acts on: one interpreter, and the queues its port may be wired to (R20: the backing store is
"part of the state of the whole system a model builds"). -/
structure State extends Interp where
  queues : List Queue
deriving DecidableEq, Repr

/-- Why a step answers no next state. -/
inductive Fault where
  /-- `step` on a Halted machine: "no step is enabled" (R76). Safe: the hardware takes no step either. -/
  | halted
  /-- `step` on a Faulted machine: "no step is enabled" (R76, R129). Safe: the hardware takes no step either. -/
  | faulted
deriving DecidableEq, Repr

/-- Why an instruction has no meaning. -/
inductive Refusal where
  /-- An instruction without a meaning, by its mnemonic. Raised by nothing: every instruction has its meaning. Safe. -/
  | notModelled (mnemonic : String)
deriving DecidableEq, Repr

/-- The answer of `IO.read()` (R89). -/
inductive ReadAnswer where
  /-- `Value(v)`, with the state after `v` has been consumed. -/
  | value (v : Word) (after : State)
  /-- The list source is empty (R93). -/
  | exhausted
  /-- No answer yet: the interpreter waits (R91). -/
  | noAnswer
deriving DecidableEq, Repr

/-- Construction of an interpreter (R22, R150, R151): memory is a copy of the program, `pc = 0`, Running, no fault. -/
def Interp.construct (program : List Word) (source : Source) (sink : Sink) (mirror : Option Overflow)
    (wordBits : Option Nat) : Interp where
  mem := program
  pc := 0
  runState := .running
  faultCause := none
  faultInfo := none
  wordBits := wordBits
  source := source
  sink := sink
  mirror := mirror

/-- A constructed interpreter with the queues the caller created for it (R154). -/
def State.construct (program : List Word) (source : Source) (sink : Sink) (mirror : Option Overflow)
    (wordBits : Option Nat) (queues : List Queue) : State where
  toInterp := Interp.construct program source sink mirror wordBits
  queues := queues

/-- The machine right after reset, where the caller has supplied nothing: an empty program, an empty list source, an
empty log sink, no queue, the default Word width. DESIGN CHOICE, log entry 1: `PROGRAM`, `SOURCE` and `SINK` are
arguments of construction (R4); `State.construct` is the reset for every choice of them. -/
def State.reset : State := State.construct [] (.list []) (.log []) none Config.wordBits []

end Sys2Proof.Machine
end

