-- ==== Sys2Proof/Machine/Ops.lean ====
section
/-! DEFINITION. The operations every instruction shares: the two memory primitives (R32, R33), fetching (R71), taking
an exception (R127, R128), the two port transactions (R89, R90), and placing a program. There is no return from an
exception to model: "There is no return from a fault" (R129). -/

namespace Sys2Proof.Machine

/-! ## Named updates of one field -/

/-- `pc <- n`. -/
def State.setPc (s : State) (n : Nat) : State := { s with pc := n }

/-- The source after a value has been consumed (R93). -/
def State.setSource (s : State) (src : Source) : State := { s with source := src }

/-- The sink after a value has been accepted (R95). -/
def State.setSink (s : State) (snk : Sink) : State := { s with sink := snk }

/-- Queue `q` after a value has been removed or appended (R94, R96). -/
def State.setQueue (s : State) (q : Nat) (Q : Queue) : State := { s with queues := s.queues.set q Q }

/-- The overflow sink after a value is appended to its log (R95, R141). -/
def Overflow.push (o : Overflow) (v : Word) : Overflow := { o with log := o.log ++ [v] }

/-- A mirrored sink hands the same value to its second sink, a log (R96, R141, decision D22). -/
def State.mirrored (s : State) (v : Word) : State := { s with mirror := s.mirror.map (·.push v) }

/-! ## The operations -/

/-- An address is valid "exactly when `0 <= a < MEM_LEN`" (R31). -/
def validAddr (m : Memory) (a : Int) : Bool := decide (0 ≤ a ∧ a < m.length)

/-- The raise for an invalid address (R123). -/
def outOfBounds (a : Word) (tag : AccessTag) : Exn := ⟨.memoryOutOfBounds, some (.address a tag)⟩

/-- The bounds check of R32, R33, R85 and R102. -/
def checkAddr (m : Memory) (a : Word) (tag : AccessTag) : Except Exn Unit :=
  if validAddr m a then .ok () else .error (outOfBounds a tag)

/-- `MemRead(addr, 1)` (R32). -/
def memRead (m : Memory) (a : Word) (tag : AccessTag) : Except Exn Word := do
  checkAddr m a tag
  return m.getD a.toNat 0

/-- `MemWrite(addr, 1, v)` (R33): one cell, the length unchanged. -/
def memWrite (m : Memory) (a : Word) (v : Word) : Except Exn Memory := do
  checkAddr m a .write
  return m.set a.toNat v

/-- The `k`-th `Fetch()` of the step that begins at `s` (R71), `k = 0` for the instruction word: the Word at
`ipc + k`. The transient `pc` of R74 is `ipc + k` when it happens, because each earlier fetch has added one. -/
def fetchAt (s : State) (k : Nat) : Except Exn Word := memRead s.mem (s.pc + k : Nat) .fetch

/-- Taking an exception, `raise K(info)` (R127) at the state the step began in, so that the fault is precise (R128):
memory, the port and the queues are as before the step and `pc` is the faulting instruction's address. -/
def raise (s : State) (e : Exn) : State :=
  { s with runState := .faulted, faultCause := some e.kind, faultInfo := e.info }

/-- The raise of a decode error (R121, R122). -/
def exnOfDecodeError : DecodeError → Exn
  | .invalidOpcode w => ⟨.invalidOpcode, some (.instrWord w)⟩
  | .invalidAddressingMode w i => ⟨.invalidAddressingMode, some (.instrParam w i)⟩

/-- The raise of an Input whose source is exhausted (R124). -/
def inputExhausted : Exn := ⟨.inputExhausted, none⟩

/-- The raise of an Add or Multiply whose result is not representable (R125). -/
def arithmeticOverflow : Exn := ⟨.arithmeticOverflow, none⟩

/-- The numeric codes of the error kinds (R120, decision D7). No rule reads them. -/
def ErrorKind.code : ErrorKind → Nat
  | .invalidOpcode => 1
  | .invalidAddressingMode => 2
  | .memoryOutOfBounds => 3
  | .inputExhausted => 4
  | .arithmeticOverflow => 5

/-- Fetch and decode the instruction at `pc` (R70): the two phases before execute. -/
def fetchDecode (s : State) : Except Exn Instr := do
  let w ← fetchAt s 0
  match decode w with
  | .ok i => return i
  | .error e => throw (exnOfDecodeError e)

/-- The end of a step that began at `s`: the new state, or the exception taken at `s`. -/
def complete (s : State) (r : Except Exn State) : Host.Outcome State Fault Refusal :=
  match r with
  | .ok t => .next t
  | .error e => .next (raise s e)

/-- The write phase of an operation that stores (R75): `mem[d] <- v`, and `pc` past the `n` Words of the instruction
(R74). -/
def storeWord (s : State) (d v : Word) (n : Nat) : Except Exn State := do
  let m ← memWrite s.mem d v
  return { s with mem := m, pc := s.pc + n }

/-- The queue has room for one more value (R90, R96). -/
def Queue.hasRoom (q : Queue) : Bool :=
  match q.capacity with
  | none => true
  | some c => decide (q.items.length < c)

/-- The queue after a value is appended at its tail (R96). -/
def Queue.push (q : Queue) (v : Word) : Queue := { q with items := q.items ++ [v] }

/-- `IO.read()` (R89): constant (R92), list (R93) and queue (R94) sources. A source wired to a queue that does not
exist never answers. DESIGN CHOICE, log entry 6: no construction of the spec wires one. -/
def ioRead (s : State) : ReadAnswer :=
  match s.source with
  | .constant c => .value c s
  | .list [] => .exhausted
  | .list (v :: vs) => .value v (s.setSource (.list vs))
  | .queue q =>
    match s.queues[q]? with
    | none => .noAnswer
    | some Q =>
      match Q.items with
      | [] => .noAnswer
      | v :: vs => .value v (s.setQueue q { Q with items := vs })

/-- `IO.write(v)` (R90): the state once the sink has accepted `v`, `none` while it has not. A log accepts at once
(R95), a queue when it has room (R96); a queue that does not exist accepts nothing (log entry 6). -/
def ioWrite (s : State) (v : Word) : Option State :=
  match s.sink with
  | .log out => some ((s.setSink (.log (out ++ [v]))).mirrored v)
  | .queue q =>
    match s.queues[q]? with
    | none => none
    | some Q =>
      if Q.hasRoom then some ((s.setQueue q (Q.push v)).mirrored v) else none

/-- Memory with the Words `ws` placed from address `a` on, longer only if they do not fit: how a program comes into
memory from outside (R154; log entry 2). No instruction does this. -/
def placeWords (m : Memory) (a : Nat) (ws : List Word) : Memory :=
  m.take a ++ List.replicate (a - m.length) 0 ++ ws ++ m.drop (a + ws.length)

end Sys2Proof.Machine
end

