-- ==== Sys2Proof/Machine/Flags.lean ====
section
/-! DEFINITION. The machine has no flags, no condition codes and no predicate registers (R17): "No operation has a flag
side effect". What other machines compute into flags is here a Word or an error: the truth value of a comparison
(R107), and the overflow of a finite Word (R80, R125). -/

namespace Sys2Proof.Machine

/-- The Word is representable (R5): always when unbounded, else in `[-2^(W-1), 2^(W-1) - 1]`. -/
def fitsWord (bits : Option Nat) (v : Int) : Bool :=
  match bits with
  | none => true
  | some W => decide (-((2 ^ (W - 1) : Nat) : Int) ≤ v ∧ v ≤ ((2 ^ (W - 1) : Nat) : Int) - 1)

/-- An exact result, or `ArithmeticOverflow` when it is not representable; never a wrapped value (R80, R125). -/
def exactResult (bits : Option Nat) (v : Word) : Except Exn Word :=
  if fitsWord bits v then .ok v else .error arithmeticOverflow

/-- Truth values as Words: 1 for true, 0 for false (spec/00 section 5.1, R107). -/
def truthWord (b : Bool) : Word := if b then 1 else 0

/-- Every cell holds a representable Word. A list of cells has no other well-formedness: equal memories are equal
lists, and its length is `MEM_LEN` (R11). -/
def Memory.wf (bits : Option Nat) (m : Memory) : Bool := m.all (fitsWord bits)

end Sys2Proof.Machine
end

