-- ==== Sys2Proof/Machine/Operands.lean ====
section
/-! DEFINITION. The operand forms (R72, R73): a read parameter through its mode, and a write-address parameter, which
is never read through a mode. -/

namespace Sys2Proof.Machine

/-- `ReadParam(m)` for parameter `k` (R72): its Word, or the cell its Word names; one level of indirection. -/
def readParam (s : State) (k : Nat) (m : Mode) : Except Exn Word := do
  let raw ← fetchAt s k
  match m with
  | .immediate => return raw
  | .position => memRead s.mem raw .read

/-- `WriteParam()` for parameter `k` (R73): the Word itself is the destination address, whatever its mode digit. -/
def writeParam (s : State) (k : Nat) : Except Exn Word := fetchAt s k

end Sys2Proof.Machine
end

