-- ==== Sys2Proof/Machine/Arithmetic.lean ====
section
/-! DEFINITION. The shared shape of a format F2R1W operation (R50, R75), and Add and Multiply (R80 to R83). -/

namespace Sys2Proof.Machine

/-- The execute phase of format F2R1W (R75): consume p1, p2 and p3 in order, compute, write `mem[d]`, `pc = ipc + 4`.
Every Word is fetched and every operand loaded before the one write (R44). -/
def binaryToMemory (compute : Word → Word → Except Exn Word) (m1 m2 : Mode) (s : State) :
    Host.Outcome State Fault Refusal :=
  complete s do
    let a ← readParam s 1 m1
    let b ← readParam s 2 m2
    let d ← writeParam s 3
    let v ← compute a b
    storeWord s d v 4

/-- Add (R81): `mem[d] <- a + b`, exact. -/
def execAdd (m1 m2 _m3 : Mode) (s : State) : Host.Outcome State Fault Refusal :=
  binaryToMemory (fun (a b : Int) => exactResult s.wordBits (a + b)) m1 m2 s

/-- Multiply (R82): `mem[d] <- a * b`, exact. -/
def execMultiply (m1 m2 _m3 : Mode) (s : State) : Host.Outcome State Fault Refusal :=
  binaryToMemory (fun (a b : Int) => exactResult s.wordBits (a * b)) m1 m2 s

end Sys2Proof.Machine
end

