-- ==== Sys2Proof/Machine/Comparison.lean ====
section
/-! DEFINITION. LessThan and Equals (R105 to R107): format F2R1W, the result 1 or 0; a comparison cannot overflow. -/

namespace Sys2Proof.Machine

/-- LessThan (R105): `mem[d] <- 1` if `a < b` in the signed order of the integers, else 0. -/
def execLessThan (m1 m2 _m3 : Mode) (s : State) : Host.Outcome State Fault Refusal :=
  binaryToMemory (fun (a b : Int) => .ok (truthWord (decide (a < b)))) m1 m2 s

/-- Equals (R106): `mem[d] <- 1` if `a == b`, else 0. -/
def execEquals (m1 m2 _m3 : Mode) (s : State) : Host.Outcome State Fault Refusal :=
  binaryToMemory (fun (a b : Int) => .ok (truthWord (decide (a = b)))) m1 m2 s

end Sys2Proof.Machine
end

