-- ==== Sys2Proof/Machine/Halt.lean ====
section
/-! DEFINITION. Halt (R110), the only system operation (R111). -/

namespace Sys2Proof.Machine

/-- Halt (R110): `run_state <- Halted`; `pc` is past the instruction word. -/
def execHalt (s : State) : Host.Outcome State Fault Refusal :=
  .next { s with runState := .halted, pc := s.pc + 1 }

end Sys2Proof.Machine
end

