-- ==== Sys2Proof/Machine/InputOutput.lean ====
section
/-! DEFINITION. Input and Output (R85, R86), and when each waits (R91). A waiting instruction answers the state it
began in: "`run_state` stays Running, `mem` and the architectural `pc` do not change, and nothing else happens". -/

namespace Sys2Proof.Machine

/-- Input's destination, consumed and checked before the port is asked (R85, decision D11). -/
def inputDest (s : State) : Except Exn Word := do
  let d ← writeParam s 1
  checkAddr s.mem d .write
  return d

/-- Input (R85): `mem[d] <- IO.read()`; waits while the source has no answer (R91). -/
def execInput (_m1 : Mode) (s : State) : Host.Outcome State Fault Refusal :=
  match inputDest s with
  | .error e => .next (raise s e)
  | .ok d =>
    match ioRead s with
    | .noAnswer => .next s
    | .exhausted => .next (raise s inputExhausted)
    | .value v t => complete s (storeWord t d v 2)

/-- Output (R86): `IO.write(a)`; waits while the sink does not accept (R91). -/
def execOutput (m1 : Mode) (s : State) : Host.Outcome State Fault Refusal :=
  match readParam s 1 m1 with
  | .error e => .next (raise s e)
  | .ok a =>
    match ioWrite s a with
    | none => .next s
    | some t => .next (t.setPc (s.pc + 2))

/-- Input at `s` is held: its destination is valid and the source has no answer (R91). -/
def inputHeld (s : State) : Bool :=
  match inputDest s with
  | .error _ => false
  | .ok _ =>
    match ioRead s with
    | .noAnswer => true
    | .exhausted => false
    | .value _ _ => false

/-- Output at `s` is held: its value is resolved and the sink does not accept it (R91). -/
def outputHeld (m1 : Mode) (s : State) : Bool :=
  match readParam s 1 m1 with
  | .error _ => false
  | .ok a => (ioWrite s a).isNone

end Sys2Proof.Machine
end

