-- ==== Sys2Proof/Machine/Jumps.lean ====
section
/-! DEFINITION. JumpIfTrue and JumpIfFalse (R100 to R102). -/

namespace Sys2Proof.Machine

/-- The execute phase of format F2R (R102): both parameters are consumed and resolved, taken or not; a taken jump
checks its target before `pc` is assigned; the target is absolute; otherwise `pc = ipc + 3`. -/
def jumpWhen (taken : Word → Bool) (m1 m2 : Mode) (s : State) : Host.Outcome State Fault Refusal :=
  complete s do
    let a ← readParam s 1 m1
    let b ← readParam s 2 m2
    if taken a then
      checkAddr s.mem b .jump
      return s.setPc b.toNat
    else
      return s.setPc (s.pc + 3)

/-- JumpIfTrue (R100): taken when `a != 0`. -/
def execJumpIfTrue (m1 m2 : Mode) (s : State) : Host.Outcome State Fault Refusal :=
  jumpWhen (fun (a : Int) => a != 0) m1 m2 s

/-- JumpIfFalse (R101): taken when `a == 0`. -/
def execJumpIfFalse (m1 m2 : Mode) (s : State) : Host.Outcome State Fault Refusal :=
  jumpWhen (fun (a : Int) => a == 0) m1 m2 s

end Sys2Proof.Machine
end

