-- ==== Sys2Proof/Machine/Step.lean ====
section
/-! DEFINITION. The step (R70): fetch, decode, execute, enabled only when Running (R76). -/

namespace Sys2Proof.Machine

/-- One step executes one instruction (R70). A fetch or decode error is taken as an exception (R127). -/
def step (s : State) : Host.Outcome State Fault Refusal :=
  match s.runState with
  | .halted => .fault .halted
  | .faulted => .fault .faulted
  | .running =>
    match fetchDecode s with
    | .error e => .next (raise s e)
    | .ok i => exec i s

/-- `s` with the Word `w` and three operand Words of 0 at `pc`, Running, so that the next step runs that instruction:
the load of a program from outside (R154; log entries 2 and 3). Memory grows only if these four Words do not fit. -/
def State.withFetchWord (s : State) (_nbits w : Nat) : State :=
  { s with mem := placeWords s.mem s.pc [(w : Word), 0, 0, 0], runState := .running, faultCause := none, faultInfo := none }

end Sys2Proof.Machine
end

