-- ==== Sys2Proof/Machine/Enabled.lean ====
section
/-! DEFINITION. Which steps are enabled (R70, R91): a held instruction is Running and stuck, "not final". -/

namespace Sys2Proof.Machine

/-- The instruction, executed at `s`, would wait on its port (R91). Only Input and Output can. -/
def held (i : Instr) (s : State) : Bool :=
  match i with
  | .input _ => inputHeld s
  | .output m1 => outputHeld m1 s
  | .add _ _ _ => false
  | .multiply _ _ _ => false
  | .jumpIfTrue _ _ => false
  | .jumpIfFalse _ _ => false
  | .lessThan _ _ _ => false
  | .equals _ _ _ => false
  | .halt => false

/-- The interpreter is waiting: Running, and its next instruction is held (R91, R135). -/
def State.waiting (s : State) : Bool :=
  s.runState == .running &&
    match fetchDecode s with
    | .error _ => false
    | .ok i => held i s

/-- The step is enabled: Running (R70) and not waiting (R91). -/
def State.enabled (s : State) : Bool := s.runState == .running && !s.waiting

end Sys2Proof.Machine
end

