-- ==== Sys2Proof/Machine/Pipeline.lean ====
section
/-! DEFINITION. The environment of the port: several interpreters joined by queues, the caller's moves, the ring
(R7, R136 to R142). The spec puts the pipeline outside the three blocks (R3) and specifies it as the port's
environment; its one source of freedom, the schedule, is the list of moves (R139, P4). -/

namespace Sys2Proof.Machine

/-- Several interpreters and the queues between them: all they share (R136). -/
structure System where
  insts : List Interp
  queues : List Queue
deriving DecidableEq, Repr

/-- One move of the system (R6, R7). -/
inductive Move where
  /-- Interpreter `i` takes a step. -/
  | step (i : Nat)
  /-- The caller puts `v` into queue `q`, whose one writer it is. -/
  | enqueue (q : Nat) (v : Word)
  /-- The caller takes the oldest value out of queue `q`, whose one reader it is. -/
  | take (q : Nat)
  /-- The caller takes the oldest value it has not taken yet from the overflow sink of interpreter `i`. -/
  | takeOverflow (i : Nat)
deriving DecidableEq, Repr

/-- What interpreter `i` sees: itself and the queues. -/
def System.view (y : System) (i : Nat) : Option State :=
  y.insts[i]?.map fun c => { toInterp := c, queues := y.queues }

/-- The system after interpreter `i` has become `s`. -/
def System.put (y : System) (i : Nat) (s : State) : System :=
  { insts := y.insts.set i s.toInterp, queues := s.queues }

/-- Some interpreter is the writer of queue `q`. -/
def System.hasWriter (y : System) (q : Nat) : Bool := y.insts.any fun c => c.sink == .queue q

/-- Some interpreter is the reader of queue `q`. -/
def System.hasReader (y : System) (q : Nat) : Bool := y.insts.any fun c => c.source == .queue q

/-- Interpreter `i`'s step may be taken (R139). -/
def System.enabledAt (y : System) (i : Nat) : Bool :=
  match y.view i with
  | none => false
  | some s => s.enabled

/-- Interpreter `i` takes its step: only it and the queues change (R136, R142). `none` when it has no enabled step. -/
def System.stepAt (y : System) (i : Nat) : Option System :=
  match y.view i with
  | none => none
  | some s =>
    if s.enabled then
      match step s with
      | .next t => some (y.put i t)
      | .fault _ => none
      | .refused _ => none
    else none

/-- The caller's enqueue (R7): only into a queue no interpreter writes (R158c) that has room, and only a Word every
interpreter can hold (R85). -/
def System.enqueue (y : System) (q : Nat) (v : Word) : Option System :=
  match y.queues[q]? with
  | none => none
  | some Q =>
    if !y.hasWriter q && Q.hasRoom && y.insts.all (fun c => fitsWord c.wordBits v) then
      some { y with queues := y.queues.set q (Q.push v) }
    else none

/-- The caller's take from a queue (R7): only from a queue no interpreter reads (R158c). -/
def System.take (y : System) (q : Nat) : Option System :=
  match y.queues[q]? with
  | none => none
  | some Q =>
    match Q.items with
    | [] => none
    | _ :: vs => if y.hasReader q then none else some { y with queues := y.queues.set q { Q with items := vs } }

/-- The caller's take from the overflow sink of interpreter `i` (R7, R141): the next value of its log, which keeps it. -/
def System.takeOverflow (y : System) (i : Nat) : Option System :=
  match y.insts[i]? with
  | none => none
  | some c =>
    match c.mirror with
    | none => none
    | some o =>
      if o.taken < o.log.length then
        some { y with insts := y.insts.set i { c with mirror := some { o with taken := o.taken + 1 } } }
      else none

/-- One move, `none` when it is not enabled. -/
def System.move (y : System) (m : Move) : Option System :=
  match m with
  | .step i => y.stepAt i
  | .enqueue q v => y.enqueue q v
  | .take q => y.take q
  | .takeOverflow i => y.takeOverflow i

/-- The moves of a schedule in order (R139): `none` when one of them is not enabled. -/
def System.run (y : System) : List Move → Option System
  | [] => some y
  | m :: ms =>
    match y.move m with
    | none => none
    | some z => z.run ms

/-- The seeded queues of a ring (R138): `queue[i] = [PHASES[i]]`, with the driving value 0 behind the phase in
`queue[0]`. -/
def ringQueues (capacity : Option Nat) : List Word → List Queue
  | [] => []
  | p :: ps => ⟨[p, 0], capacity⟩ :: ps.map fun q => ⟨[q], capacity⟩

/-- Interpreter `i` of a ring of `n` (R137): source `queue[i]`, sink `queue[(i+1) mod n]`, the last one's sink mirrored
to the overflow sink. -/
def ringInterp (program : List Word) (wordBits : Option Nat) (n i : Nat) : Interp :=
  Interp.construct program (.queue i) (.queue ((i + 1) % n)) (if i + 1 = n then some ⟨[], 0⟩ else none) wordBits

/-- The ring just launched (R136 to R138, R155): one interpreter per phase setting, each with its own copy of the
program. -/
def System.ring (program phases : List Word) (capacity wordBits : Option Nat) : System where
  insts := (List.range phases.length).map (ringInterp program wordBits phases.length)
  queues := ringQueues capacity phases

/-- Every interpreter is Halted: the pipeline run has ended successfully (R161). -/
def System.ended (y : System) : Bool := y.insts.all fun c => c.runState == .halted

/-- No interpreter has an enabled step. Without `ended` the system is stuck or has failed, "never an ended one"
(R142). -/
def System.quiet (y : System) : Bool := (List.range y.insts.length).all fun i => !y.enabledAt i

/-- The result of a pipeline run (R141, decision D22): the last value the last interpreter wrote, that is the last entry
of its overflow sink's log, once every interpreter is Halted; whatever the caller has taken (R7). -/
def System.result (y : System) : Option Word :=
  if y.ended then y.insts.getLast?.bind fun c => c.mirror.bind fun o => o.log.getLast? else none

end Sys2Proof.Machine
end

