-- ==== Sys2Proof/Safety.lean ====
section
/-! DEFINITION. The terms claims are stated in: how a run ends (R161), what an operand is (R56, R60), which parameter
an instruction stores to, and the invariant of the machine. -/

namespace Sys2Proof.Machine

/-- "A run of one interpreter has ended successfully exactly when `run_state = Halted`" (R161). -/
def State.endedWell (s : State) : Bool := s.runState == .halted

/-- "A run has ended in failure when `run_state = Faulted`" (R161). -/
def State.endedBadly (s : State) : Bool := s.runState == .faulted

/-- A safe run has not faulted: it is Halted, or still Running (R161). -/
def State.safe (s : State) : Bool := s.runState != .faulted

/-- The cell at an address, if the address is valid (R31). -/
def cell (m : Memory) (a : Int) : Option Word := if 0 ≤ a then m[a.toNat]? else none

/-- The parameter Word `k` of the instruction at `pc`, if it lies in memory (R50). -/
def State.param (s : State) (k : Nat) : Option Word := s.mem[s.pc + k]?

/-- The value of a read parameter `k` with mode `m`, if it has one: the Word itself or the cell it names (R56, R72). -/
def State.operand (s : State) (k : Nat) (m : Mode) : Option Word :=
  match s.param k, m with
  | none, _ => none
  | some raw, .immediate => some raw
  | some raw, .position => cell s.mem raw

/-- The state with a value stored and `pc` past the instruction's `n` Words. -/
def State.stored (s : State) (d v : Word) (n : Nat) : State :=
  { s with mem := s.mem.set d.toNat v, pc := s.pc + n }

/-- The state with the exception `kind`, `info` taken (R127). -/
def State.faultedWith (s : State) (kind : ErrorKind) (info : Option FaultInfo) : State :=
  { s with runState := .faulted, faultCause := some kind, faultInfo := info }

/-- The state with `MemoryOutOfBounds` taken for address `a` (R123). -/
def State.outOfBoundsAt (s : State) (a : Word) (tag : AccessTag) : State :=
  s.faultedWith .memoryOutOfBounds (some (.address a tag))

/-- Which parameter is the write-address parameter, if the operation has one (R50). -/
def Instr.destParam : Instr → Option Nat
  | .add _ _ _ => some 3
  | .multiply _ _ _ => some 3
  | .input _ => some 1
  | .output _ => none
  | .jumpIfTrue _ _ => none
  | .jumpIfFalse _ _ => none
  | .lessThan _ _ _ => some 3
  | .equals _ _ _ => some 3
  | .halt => none

/-- The address the instruction at `pc` stores to, if it stores and its parameter lies in memory (R73): the parameter
Word itself. -/
def State.destAddr (s : State) (i : Instr) : Option Word := (Instr.destParam i).bind s.param

/-- The words still to come from the source's private store are representable (R85). -/
def Source.wf (bits : Option Nat) : Source → Bool
  | .constant c => fitsWord bits c
  | .list vs => vs.all (fitsWord bits)
  | .queue _ => true

/-- The words of the sink's private record are representable. -/
def Sink.wf (bits : Option Nat) : Sink → Bool
  | .log out => out.all (fitsWord bits)
  | .queue _ => true

/-- A queue holds representable Words, no more than its capacity (R94, R96). -/
def Queue.wf (bits : Option Nat) (Q : Queue) : Bool :=
  Q.items.all (fitsWord bits) &&
    match Q.capacity with
    | none => true
    | some c => decide (Q.items.length ≤ c)

/-- The words of the overflow sink are representable, and at most all of them have been taken. -/
def Overflow.wf (bits : Option Nat) (o : Overflow) : Bool := o.log.all (fitsWord bits) && decide (o.taken ≤ o.log.length)

/-- A source's queue exists. -/
def Source.wired (n : Nat) : Source → Bool
  | .constant _ => true
  | .list _ => true
  | .queue q => decide (q < n)

/-- A sink's queue exists. -/
def Sink.wired (n : Nat) : Sink → Bool
  | .log _ => true
  | .queue q => decide (q < n)

/-- The fault record is one of the rows of R120: the info is what the kind records, `ArithmeticOverflow` only with a
finite Word (R125). -/
def faultRecordOk (bits : Option Nat) : Option ErrorKind → Option FaultInfo → Bool
  | none, none => true
  | some .invalidOpcode, some (.instrWord _) => true
  | some .invalidAddressingMode, some (.instrParam _ i) => decide (1 ≤ i ∧ i ≤ 3)
  | some .memoryOutOfBounds, some (.address _ _) => true
  | some .inputExhausted, none => true
  | some .arithmeticOverflow, none => bits.isSome
  | _, _ => false

/-- A finite Word is wide enough for the result 1 of a comparison (R107); log entry 5. -/
def widthOk : Option Nat → Bool
  | none => true
  | some W => decide (2 ≤ W)

/-- The invariant of one interpreter and its queues. -/
structure State.Inv (s : State) : Prop where
  /-- "`0 <= pc <= MEM_LEN` in every reachable state" (R12). -/
  pc_le : s.pc ≤ s.mem.length
  /-- The Word width holds the truth values (R107). -/
  width : widthOk s.wordBits = true
  /-- Every cell is a Word of the width (R5). -/
  mem_wf : Memory.wf s.wordBits s.mem = true
  /-- The source supplies Words of the width (R85). -/
  source_wf : s.source.wf s.wordBits = true
  /-- The log holds Words of the width. -/
  sink_wf : s.sink.wf s.wordBits = true
  /-- The overflow sink holds Words of the width, and no more is taken from it than was written (R7). -/
  mirror_wf : s.mirror.all (Overflow.wf s.wordBits) = true
  /-- The queues hold Words of the width, within their capacity (R96). -/
  queues_wf : ∀ Q ∈ s.queues, Q.wf s.wordBits = true
  /-- The queue the source names exists (R94). -/
  source_wired : s.source.wired s.queues.length = true
  /-- The queue the sink names exists (R96). -/
  sink_wired : s.sink.wired s.queues.length = true
  /-- A fault is recorded exactly when Faulted (R15). -/
  cause_iff : s.faultCause.isSome = (s.runState == .faulted)
  /-- The record is a row of R120. -/
  record_ok : faultRecordOk s.wordBits s.faultCause s.faultInfo = true

/-- The interpreter as it would be had the caller taken nothing from its overflow sink (R7). -/
def Interp.beforeTakes (c : Interp) : Interp := { c with mirror := c.mirror.map fun o => { o with taken := 0 } }

/-- The source of interpreter `i`. -/
def System.sourceAt (y : System) (i : Nat) : Option Source := (y.insts[i]?).map Interp.source

/-- The sink of interpreter `i`. -/
def System.sinkAt (y : System) (i : Nat) : Option Sink := (y.insts[i]?).map Interp.sink

/-- The wiring of a system (R137): each queue has at most one reader and at most one writer among the interpreters,
all interpreters have one Word width, and each with the queues meets the invariant. -/
structure System.Inv (y : System) : Prop where
  one_reader : ∀ i j q, y.sourceAt i = some (.queue q) → y.sourceAt j = some (.queue q) → i = j
  one_writer : ∀ i j q, y.sinkAt i = some (.queue q) → y.sinkAt j = some (.queue q) → i = j
  one_width : ∀ c ∈ y.insts, ∀ d ∈ y.insts, c.wordBits = d.wordBits
  each : ∀ i s, y.view i = some s → s.Inv

end Sys2Proof.Machine
end

