-- ==== Sys2Proof/Certificates/Slice0/Obligations.lean ====
section
/-! DEFINITION. The statements for the provers. They speak the vocabulary of Safety.lean: `param k` is the k-th Word
after the instruction word, `operand k m` its value through mode `m` when it has one, `stored d v n` the state with `v`
in cell `d` and `pc` past `n` Words, `faultedWith` and `outOfBoundsAt` the state with an exception taken. What such a
state holds besides its run state and fault cause (`pc`, memory, the info) is decisions D7 and D8 of the spec, not its
source (R128, log entry 9). -/

open Sys2Proof Sys2Proof.Machine

/-! ## Encoding and decoding -/

/-- Words written out digit by digit from the encoding of R51 (`... m3 m2 m1 c c`), one or more per family, decode to
the instruction they stand for; illegal Words are refused with the error of R53. Vectors of spec/95 section 3.1. -/
def Obligations.WrittenOutWordsDecode : Prop :=
  decode 1002 = .ok (.multiply .position .immediate .position) ∧
  decode 101 = .ok (.add .immediate .position .position) ∧
  decode 10001 = .ok (.add .position .position .immediate) ∧
  decode 103 = .ok (.input .immediate) ∧
  decode 104 = .ok (.output .immediate) ∧
  decode 1005 = .ok (.jumpIfTrue .position .immediate) ∧
  decode 106 = .ok (.jumpIfFalse .immediate .position) ∧
  decode 1107 = .ok (.lessThan .immediate .immediate .position) ∧
  decode 8 = .ok (.equals .position .position .position) ∧
  decode 299 = .ok .halt ∧
  decode (-99) = .error (.invalidOpcode (-99)) ∧
  decode 900 = .error (.invalidOpcode 900) ∧
  decode 2205 = .error (.invalidAddressingMode 2205 1) ∧
  decode 20001 = .error (.invalidAddressingMode 20001 3)

/-- Decoding the instruction word of any instruction gives it back, every mode digit included (R51, R53). -/
def Obligations.DecodeOfEncode : Prop := ∀ i : Instr, decode (encode i) = .ok i

/-- The Words that decode to an instruction are exactly its encoding with any digits above the last declared mode
digit (R51, R53, R56, R59). -/
def Obligations.DecodesExactlyWithAnyHigherDigits : Prop :=
  ∀ (w : Int) (i : Instr),
    decode w = .ok i ↔ ∃ k : Nat, w = encode i + (10 ^ (i.op.paramCount + 2) * k : Nat)

/-- Every Word is exactly one of: a legal instruction word, an `InvalidOpcode` word, an `InvalidAddressingMode` word
(R61), told apart by its sign, its two low digits and its declared mode digits, the lowest bad one named (R54, R55,
R57, decisions D3 and D20). -/
def Obligations.EveryWordIsLegalOrOneDecodeError : Prop :=
  ∀ w : Int,
    (w < 0 → decode w = .error (.invalidOpcode w)) ∧
    (0 ≤ w → w.toNat % 100 ∉ [1, 2, 3, 4, 5, 6, 7, 8, 99] → decode w = .error (.invalidOpcode w)) ∧
    (0 ≤ w → ∀ o : Op, opOfCode (w.toNat % 100) = some o →
      ((∀ i, 1 ≤ i → i ≤ o.paramCount → digit (i + 1) w.toNat ≤ 1) → ∃ i : Instr, i.op = o ∧ decode w = .ok i) ∧
      (∀ i, 1 ≤ i → i ≤ o.paramCount → 2 ≤ digit (i + 1) w.toNat →
        (∀ j, 1 ≤ j → j < i → digit (j + 1) w.toNat ≤ 1) → decode w = .error (.invalidAddressingMode w i)))

/-- R55: a non-negative instruction word with no known operation code raises `InvalidOpcode`, whatever its higher
digits. -/
def Obligations.UnknownOperationCodeRaises : Prop :=
  ∀ (s : State) (w : Int), s.runState = .running → s.param 0 = some w → 0 ≤ w →
    (w % 100 = 0 ∨ (9 ≤ w % 100 ∧ w % 100 ≤ 98)) →
    step s = .next (s.faultedWith .invalidOpcode (some (.instrWord w)))

/-- A negative instruction word raises `InvalidOpcode` (R54, decision D3). -/
def Obligations.NegativeInstructionWordRaises : Prop :=
  ∀ (s : State) (w : Int), s.runState = .running → s.param 0 = some w → w < 0 →
    step s = .next (s.faultedWith .invalidOpcode (some (.instrWord w)))

/-- A mode digit 2 to 9 of a declared parameter, the write-address parameter included, raises
`InvalidAddressingMode` before any parameter is fetched; the lowest bad index is recorded (R57, R122, decision D20). -/
def Obligations.BadModeDigitRaises : Prop :=
  ∀ (s : State) (w : Int) (o : Op) (i : Nat), s.runState = .running → s.param 0 = some w → 0 ≤ w →
    opOfCode (w.toNat % 100) = some o → 1 ≤ i → i ≤ o.paramCount → 2 ≤ digit (i + 1) w.toNat →
    (∀ j, 1 ≤ j → j < i → digit (j + 1) w.toNat ≤ 1) →
    step s = .next (s.faultedWith .invalidAddressingMode (some (.instrParam w i)))

/-- The mode digit of a write-address parameter is never applied: instructions that differ only there execute alike
(R58, R73). -/
def Obligations.DestinationModeNeverApplied : Prop :=
  ∀ (s : State) (m1 m2 m3 m3' : Mode),
    exec (.add m1 m2 m3) s = exec (.add m1 m2 m3') s ∧
    exec (.multiply m1 m2 m3) s = exec (.multiply m1 m2 m3') s ∧
    exec (.lessThan m1 m2 m3) s = exec (.lessThan m1 m2 m3') s ∧
    exec (.equals m1 m2 m3) s = exec (.equals m1 m2 m3') s ∧
    exec (.input m3) s = exec (.input m3') s

/-! ## The step -/

/-- When the Word at `pc` decodes to an instruction, a Running machine's step is that instruction executed (R70). The
machine adds nothing around it: `exec` itself leaves `pc` past the instruction's Words. -/
def Obligations.StepRunsTheDecodedInstruction : Prop :=
  ∀ (s : State) (w : Int) (i : Instr), s.runState = .running → s.param 0 = some w → decode w = .ok i →
    step s = exec i s

/-- A fetch of the instruction word past the last cell raises `MemoryOutOfBounds` with tag `fetch` (R71, R123,
decision D9), so an empty program faults at once (R151). -/
def Obligations.FetchPastTheEndRaises : Prop :=
  ∀ s : State, s.runState = .running → s.mem.length ≤ s.pc → step s = .next (s.outOfBoundsAt s.pc .fetch)

/-- R76: Halted and Faulted take no step, and so never change; no schedule moves them. -/
def Obligations.EndedMachineTakesNoStep : Prop :=
  ∀ s : State, s.runState ≠ .running →
    s.enabled = false ∧ (∀ t, step s ≠ .next t) ∧
    (∀ (y : System) (i : Nat), y.view i = some s → y.stepAt i = none)

/-- A Running machine always answers a next state: whatever memory holds, it runs an instruction or takes an exception
(R61, R70, R127), or it waits. That a waiting machine's step answers a next state at all, the same state, is the model's
choice (log entry 7): R91 says only that such a step is not enabled. -/
def Obligations.RunningMachineAlwaysAnswers : Prop :=
  ∀ s : State, s.runState = .running → ∃ t, step s = .next t

/-- The step of a waiting machine changes nothing (R91); a machine waits exactly when its step is not enabled though it
is Running. -/
def Obligations.WaitingChangesNothing : Prop :=
  ∀ s : State, (s.waiting = true → step s = .next s) ∧
    (s.waiting = true ↔ s.runState = .running ∧ s.enabled = false)

/-- Every exception is precise (R127, R128, decision D8): a step that ends Faulted changes the run state and the fault
record and nothing else, and the record is a row of R120's table. -/
def Obligations.FaultsArePrecise : Prop :=
  ∀ s t : State, step s = .next t → t.runState = .faulted →
    ∃ (k : ErrorKind) (j : Option FaultInfo), t = s.faultedWith k j ∧ faultRecordOk s.wordBits (some k) j = true

/-- How a step leaves `pc` (R13, R74): past the instruction word and all parameters; a taken jump at its target
exactly. -/
def Obligations.ProgramCounterAfterAStep : Prop :=
  ∀ (s t : State) (i : Instr), step s = .next t → fetchDecode s = .ok i → s.waiting = false →
    t.runState ≠ .faulted →
    match i with
    | .jumpIfTrue m1 m2 => ∃ a b, s.operand 1 m1 = some a ∧ s.operand 2 m2 = some b ∧
        t.pc = if a ≠ 0 then b.toNat else s.pc + 3
    | .jumpIfFalse m1 m2 => ∃ a b, s.operand 1 m1 = some a ∧ s.operand 2 m2 = some b ∧
        t.pc = if a = 0 then b.toNat else s.pc + 3
    | .add _ _ _ => t.pc = s.pc + 4
    | .multiply _ _ _ => t.pc = s.pc + 4
    | .lessThan _ _ _ => t.pc = s.pc + 4
    | .equals _ _ _ => t.pc = s.pc + 4
    | .input _ => t.pc = s.pc + 2
    | .output _ => t.pc = s.pc + 2
    | .halt => t.pc = s.pc + 1

/-- A step keeps the parameters of the run: the memory's length (R11), the Word width, the number of queues and their
capacities, whether the sink is mirrored, and what source and sink are joined to (R87). -/
def Obligations.StepKeepsTheConfiguration : Prop :=
  ∀ s t : State, step s = .next t →
    t.mem.length = s.mem.length ∧ t.wordBits = s.wordBits ∧
    t.queues.map Queue.capacity = s.queues.map Queue.capacity ∧
    t.mirror.isSome = s.mirror.isSome ∧
    (∀ c, t.source = .constant c ↔ s.source = .constant c) ∧
    (∀ q, t.source = .queue q ↔ s.source = .queue q) ∧
    (∀ q, t.sink = .queue q ↔ s.sink = .queue q)

/-- One step writes at most the one cell its write-address parameter names (R75): every other address reads as
before. -/
def Obligations.StepWritesOnlyTheDestination : Prop :=
  ∀ (s t : State) (i : Instr), step s = .next t → fetchDecode s = .ok i →
    ∀ (a : Int) (g : AccessTag), s.destAddr i ≠ some a → memRead t.mem a g = memRead s.mem a g

/-- Every step keeps the invariant: `pc` within `[0, MEM_LEN]` (R12), the fault record set exactly when Faulted and a
row of R120 (R15, R16), every Word within the width (R5), queues within capacity (R96), endpoints wired. -/
def Obligations.StepKeepsTheInvariant : Prop := ∀ s t : State, s.Inv → step s = .next t → t.Inv

/-- The machine right after reset meets the invariant. Its program, source and sink are the model's choice (log entry
1); `ConstructionMeetsTheInvariant` is the statement for every choice. -/
def Obligations.ResetMeetsTheInvariant : Prop := State.reset.Inv

/-- Construction (R22, R150, R151) with any program, port and width whose Words fit leaves the reset values and meets
the invariant. -/
def Obligations.ConstructionMeetsTheInvariant : Prop :=
  ∀ (p : List Word) (src : Source) (snk : Sink) (mir : Option Overflow) (b : Option Nat) (qs : List Queue),
    let s := State.construct p src snk mir b qs
    (s.mem = p ∧ s.pc = 0 ∧ s.runState = .running ∧ s.faultCause = none ∧ s.faultInfo = none) ∧
    (widthOk b = true → p.all (fitsWord b) = true → src.wf b = true → snk.wf b = true →
      mir.all (Overflow.wf b) = true → (∀ Q ∈ qs, Q.wf b = true) →
      src.wired qs.length = true → snk.wired qs.length = true → s.Inv)

/-! ## Results: each instruction completes, and with what -/

/-- Add writes the exact sum of its operands at its destination, and changes nothing else but `pc` (R81). -/
def Obligations.AddCompletes : Prop :=
  ∀ (s : State) (m1 m2 m3 : Mode) (a b d : Int),
    s.operand 1 m1 = some a → s.operand 2 m2 = some b → s.param 3 = some d → 0 ≤ d → d < s.mem.length →
    fitsWord s.wordBits (a + b) = true → exec (.add m1 m2 m3) s = .next (s.stored d (a + b) 4)

/-- Multiply writes the exact product of its operands at its destination, and changes nothing else but `pc` (R82). -/
def Obligations.MultiplyCompletes : Prop :=
  ∀ (s : State) (m1 m2 m3 : Mode) (a b d : Int),
    s.operand 1 m1 = some a → s.operand 2 m2 = some b → s.param 3 = some d → 0 ≤ d → d < s.mem.length →
    fitsWord s.wordBits (a * b) = true → exec (.multiply m1 m2 m3) s = .next (s.stored d (a * b) 4)

/-- LessThan writes 1 if `a < b` and 0 if not, in the signed order, whatever the width (R105). -/
def Obligations.LessThanCompletes : Prop :=
  ∀ (s : State) (m1 m2 m3 : Mode) (a b d : Int),
    s.operand 1 m1 = some a → s.operand 2 m2 = some b → s.param 3 = some d → 0 ≤ d → d < s.mem.length →
    (a < b → exec (.lessThan m1 m2 m3) s = .next (s.stored d 1 4)) ∧
    (b ≤ a → exec (.lessThan m1 m2 m3) s = .next (s.stored d 0 4))

/-- Equals writes 1 if `a == b` and 0 if not (R106). -/
def Obligations.EqualsCompletes : Prop :=
  ∀ (s : State) (m1 m2 m3 : Mode) (a b d : Int),
    s.operand 1 m1 = some a → s.operand 2 m2 = some b → s.param 3 = some d → 0 ≤ d → d < s.mem.length →
    (a = b → exec (.equals m1 m2 m3) s = .next (s.stored d 1 4)) ∧
    (a ≠ b → exec (.equals m1 m2 m3) s = .next (s.stored d 0 4))

/-- R107: the result of a comparison is the Word 1 or the Word 0, by the strict signed order or by equality, and only
the destination cell is written. -/
def Obligations.ComparisonGivesOneOrZero : Prop :=
  ∀ (s t : State) (m1 m2 m3 : Mode) (i : Instr), (i = .lessThan m1 m2 m3 ∨ i = .equals m1 m2 m3) →
    exec i s = .next t → t.runState ≠ .faulted →
    ∃ a b d : Int, s.operand 1 m1 = some a ∧ s.operand 2 m2 = some b ∧ s.param 3 = some d ∧
      (cell t.mem d = some 1 ∨ cell t.mem d = some 0) ∧
      (cell t.mem d = some 1 ↔ if i = .lessThan m1 m2 m3 then a < b else a = b) ∧
      ∀ x : Int, x ≠ d → cell t.mem x = cell s.mem x

/-- Input stores the value its source answers at its destination and consumes it, for each of the three sources
(R85, R92, R93, R94). -/
def Obligations.InputCompletes : Prop :=
  ∀ (s : State) (m1 : Mode) (d v : Int), s.param 1 = some d → 0 ≤ d → d < s.mem.length →
    (s.source = .constant v → exec (.input m1) s = .next (s.stored d v 2)) ∧
    (∀ vs, s.source = .list (v :: vs) →
      exec (.input m1) s = .next ((s.setSource (.list vs)).stored d v 2)) ∧
    (∀ q Q vs, s.source = .queue q → s.queues[q]? = some Q → Q.items = v :: vs →
      exec (.input m1) s = .next ((s.setQueue q { Q with items := vs }).stored d v 2))

/-- Output hands its value to the log, or to a queue with room, and to the mirror, and changes nothing else but `pc`
(R86, R95, R96, decision D22 for the mirror). -/
def Obligations.OutputCompletes : Prop :=
  ∀ (s : State) (m1 : Mode) (a : Int), s.operand 1 m1 = some a →
    (∀ out, s.sink = .log out →
      exec (.output m1) s =
        .next (((s.setSink (.log (out ++ [a]))).mirrored a).setPc (s.pc + 2))) ∧
    (∀ q Q, s.sink = .queue q → s.queues[q]? = some Q →
      (Q.capacity = none ∨ ∃ c, Q.capacity = some c ∧ Q.items.length < c) →
      exec (.output m1) s =
        .next (((s.setQueue q { Q with items := Q.items ++ [a] }).mirrored a).setPc (s.pc + 2)))

/-- JumpIfTrue: a non-zero condition goes to the target exactly, a zero one falls through, whatever the target Word
(R100, R102). -/
def Obligations.JumpIfTrueCompletes : Prop :=
  ∀ (s : State) (m1 m2 : Mode) (a b : Int), s.operand 1 m1 = some a → s.operand 2 m2 = some b →
    (a ≠ 0 → 0 ≤ b → b < s.mem.length → exec (.jumpIfTrue m1 m2) s = .next (s.setPc b.toNat)) ∧
    (a = 0 → exec (.jumpIfTrue m1 m2) s = .next (s.setPc (s.pc + 3)))

/-- JumpIfFalse: a zero condition goes to the target exactly, a non-zero one falls through, whatever the target Word
(R101, R102). -/
def Obligations.JumpIfFalseCompletes : Prop :=
  ∀ (s : State) (m1 m2 : Mode) (a b : Int), s.operand 1 m1 = some a → s.operand 2 m2 = some b →
    (a = 0 → 0 ≤ b → b < s.mem.length → exec (.jumpIfFalse m1 m2) s = .next (s.setPc b.toNat)) ∧
    (a ≠ 0 → exec (.jumpIfFalse m1 m2) s = .next (s.setPc (s.pc + 3)))

/-- R110: Halt ends the run, with `pc` past the instruction word; memory and the port are not touched and it raises
nothing, in every state. -/
def Obligations.HaltCompletes : Prop :=
  ∀ s : State, exec .halt s = .next { s with runState := .halted, pc := s.pc + 1 }

/-! ## Frames: what an executed instruction leaves unchanged, exceptions included -/

/-- Add, Multiply, LessThan and Equals leave the port, the queues and the width alone; the run state and the fault
record change only by an exception; every cell but the destination reads as before (R44, R75, R83). -/
def Obligations.FrameOfMemoryOperations : Prop :=
  ∀ (s t : State) (m1 m2 m3 : Mode) (i : Instr),
    (i = .add m1 m2 m3 ∨ i = .multiply m1 m2 m3 ∨ i = .lessThan m1 m2 m3 ∨ i = .equals m1 m2 m3) →
    exec i s = .next t →
    t.wordBits = s.wordBits ∧ t.source = s.source ∧ t.sink = s.sink ∧ t.mirror = s.mirror ∧ t.queues = s.queues ∧
    ((t.runState = s.runState ∧ t.faultCause = s.faultCause ∧ t.faultInfo = s.faultInfo) ∨
      (t.runState = .faulted ∧ t.mem = s.mem ∧ t.pc = s.pc)) ∧
    ∀ (a : Int) (g : AccessTag), s.param 3 ≠ some a → memRead t.mem a g = memRead s.mem a g

/-- The jumps and Halt leave memory, the port, the queues and the width alone; the jumps change the run state and the
fault record only by an exception, and Halt never changes the fault record (R100, R101, R110). -/
def Obligations.FrameOfControlOperations : Prop :=
  ∀ (s t : State) (m1 m2 : Mode) (i : Instr), (i = .jumpIfTrue m1 m2 ∨ i = .jumpIfFalse m1 m2 ∨ i = .halt) →
    exec i s = .next t →
    t.wordBits = s.wordBits ∧ t.source = s.source ∧ t.sink = s.sink ∧ t.mirror = s.mirror ∧ t.queues = s.queues ∧
    (∀ (a : Int) (g : AccessTag), memRead t.mem a g = memRead s.mem a g) ∧
    (i = .halt → t.faultCause = s.faultCause ∧ t.faultInfo = s.faultInfo) ∧
    (i ≠ .halt → (t.runState = s.runState ∧ t.faultCause = s.faultCause ∧ t.faultInfo = s.faultInfo) ∨
      (t.runState = .faulted ∧ t.pc = s.pc))

/-- Input leaves the sink, the mirror, the width and every queue but its source's alone; every cell but its destination
reads as before; the run state and the fault record change only by an exception, which consumes nothing (R85, R128). -/
def Obligations.FrameOfInput : Prop :=
  ∀ (s t : State) (m1 : Mode), exec (.input m1) s = .next t →
    t.wordBits = s.wordBits ∧ t.sink = s.sink ∧ t.mirror = s.mirror ∧
    (∀ q, s.source ≠ .queue q → t.queues[q]? = s.queues[q]?) ∧
    ((t.runState = s.runState ∧ t.faultCause = s.faultCause ∧ t.faultInfo = s.faultInfo) ∨
      (t.runState = .faulted ∧ t.mem = s.mem ∧ t.pc = s.pc ∧ t.source = s.source ∧ t.queues = s.queues)) ∧
    ∀ (a : Int) (g : AccessTag), s.param 1 ≠ some a → memRead t.mem a g = memRead s.mem a g

/-- Output leaves memory, the source, the width, what the caller has taken and every queue but its sink's alone; the run state and the fault
record change only by an exception, which writes nothing to the port (R86, R128). -/
def Obligations.FrameOfOutput : Prop :=
  ∀ (s t : State) (m1 : Mode), exec (.output m1) s = .next t →
    t.wordBits = s.wordBits ∧ t.source = s.source ∧ t.mirror.map Overflow.taken = s.mirror.map Overflow.taken ∧
    (∀ q, s.sink ≠ .queue q → t.queues[q]? = s.queues[q]?) ∧
    ((t.runState = s.runState ∧ t.faultCause = s.faultCause ∧ t.faultInfo = s.faultInfo) ∨
      (t.runState = .faulted ∧ t.pc = s.pc ∧ t.sink = s.sink ∧ t.mirror = s.mirror ∧ t.queues = s.queues)) ∧
    ∀ (a : Int) (g : AccessTag), memRead t.mem a g = memRead s.mem a g

/-! ## Where the instructions trap and wait -/

/-- The memory exceptions of Add, Multiply, LessThan and Equals, in the order of R126 items 4 and 6: each parameter left
to right, its fetch before its Position load, then the destination. -/
def Obligations.MemoryOperationTraps : Prop :=
  ∀ (s : State) (m1 m2 m3 : Mode) (i : Instr),
    (i = .add m1 m2 m3 ∨ i = .multiply m1 m2 m3 ∨ i = .lessThan m1 m2 m3 ∨ i = .equals m1 m2 m3) →
    (s.param 1 = none → exec i s = .next (s.outOfBoundsAt (s.pc + 1) .fetch)) ∧
    (∀ p, s.param 1 = some p → m1 = .position → cell s.mem p = none → exec i s = .next (s.outOfBoundsAt p .read)) ∧
    (∀ a, s.operand 1 m1 = some a → s.param 2 = none → exec i s = .next (s.outOfBoundsAt (s.pc + 2) .fetch)) ∧
    (∀ a p, s.operand 1 m1 = some a → s.param 2 = some p → m2 = .position → cell s.mem p = none →
      exec i s = .next (s.outOfBoundsAt p .read)) ∧
    (∀ a b, s.operand 1 m1 = some a → s.operand 2 m2 = some b → s.param 3 = none →
      exec i s = .next (s.outOfBoundsAt (s.pc + 3) .fetch)) ∧
    (∀ a b d : Int, s.operand 1 m1 = some a → s.operand 2 m2 = some b → s.param 3 = some d → cell s.mem d = none →
      (i = .add m1 m2 m3 → fitsWord s.wordBits (a + b) = true) →
      (i = .multiply m1 m2 m3 → fitsWord s.wordBits (a * b) = true) →
      exec i s = .next (s.outOfBoundsAt d .write))

/-- With a finite Word, an Add or Multiply whose exact result is not representable raises `ArithmeticOverflow` and
writes nothing, before the destination is checked (R80, R125, R126 item 5; decision D1). -/
def Obligations.OverflowRaises : Prop :=
  ∀ (s : State) (m1 m2 m3 : Mode) (W : Nat) (a b d : Int),
    s.wordBits = some W → s.operand 1 m1 = some a → s.operand 2 m2 = some b → s.param 3 = some d →
    (a + b < -(2 ^ (W - 1)) ∨ 2 ^ (W - 1) ≤ a + b →
      exec (.add m1 m2 m3) s = .next (s.faultedWith .arithmeticOverflow none)) ∧
    (a * b < -(2 ^ (W - 1)) ∨ 2 ^ (W - 1) ≤ a * b →
      exec (.multiply m1 m2 m3) s = .next (s.faultedWith .arithmeticOverflow none))

/-- With the unbounded Word no instruction raises `ArithmeticOverflow` (R80, R125). -/
def Obligations.UnboundedWordNeverOverflows : Prop :=
  ∀ s t : State, s.wordBits = none → step s = .next t → t.faultCause = some .arithmeticOverflow →
    s.faultCause = some .arithmeticOverflow

/-- The exceptions of the jumps in the order of R126: the parameters left to right, both resolved whether or not the
jump is taken, then the target of a taken jump (R100, R101, R102). -/
def Obligations.JumpTraps : Prop :=
  ∀ (s : State) (m1 m2 : Mode) (i : Instr), (i = .jumpIfTrue m1 m2 ∨ i = .jumpIfFalse m1 m2) →
    (s.param 1 = none → exec i s = .next (s.outOfBoundsAt (s.pc + 1) .fetch)) ∧
    (∀ p, s.param 1 = some p → m1 = .position → cell s.mem p = none → exec i s = .next (s.outOfBoundsAt p .read)) ∧
    (∀ a, s.operand 1 m1 = some a → s.param 2 = none → exec i s = .next (s.outOfBoundsAt (s.pc + 2) .fetch)) ∧
    (∀ a p, s.operand 1 m1 = some a → s.param 2 = some p → m2 = .position → cell s.mem p = none →
      exec i s = .next (s.outOfBoundsAt p .read)) ∧
    (∀ a b : Int, s.operand 1 m1 = some a → s.operand 2 m2 = some b → cell s.mem b = none →
      (if i = .jumpIfTrue m1 m2 then a ≠ 0 else a = 0) → exec i s = .next (s.outOfBoundsAt b .jump))

/-- The exceptions of Input in order: the fetch of its parameter, its destination before the port is asked, and an
exhausted list source; none consumes a value (R85, R93, R124, decision D11). -/
def Obligations.InputTraps : Prop :=
  ∀ (s : State) (m1 : Mode),
    (s.param 1 = none → exec (.input m1) s = .next (s.outOfBoundsAt (s.pc + 1) .fetch)) ∧
    (∀ d, s.param 1 = some d → cell s.mem d = none → exec (.input m1) s = .next (s.outOfBoundsAt d .write)) ∧
    (∀ d, s.param 1 = some d → (cell s.mem d).isSome → s.source = .list [] →
      exec (.input m1) s = .next (s.faultedWith .inputExhausted none))

/-- The exceptions of Output: the fetch of its parameter and its Position load, both before the port (R86). -/
def Obligations.OutputTraps : Prop :=
  ∀ (s : State) (m1 : Mode),
    (s.param 1 = none → exec (.output m1) s = .next (s.outOfBoundsAt (s.pc + 1) .fetch)) ∧
    (∀ p, s.param 1 = some p → m1 = .position → cell s.mem p = none →
      exec (.output m1) s = .next (s.outOfBoundsAt p .read))

/-- An Input with a valid destination waits on an empty queue, and an Output with its value resolved waits on a full
one: nothing changes and the instruction is held (R91, R94, R96). -/
def Obligations.PortWaits : Prop :=
  ∀ (s : State) (m1 : Mode) (q : Nat) (Q : Queue), s.queues[q]? = some Q →
    (∀ d, s.source = .queue q → Q.items = [] → s.param 1 = some d → (cell s.mem d).isSome →
      exec (.input m1) s = .next s ∧ held (.input m1) s = true) ∧
    (∀ a c, s.sink = .queue q → Q.capacity = some c → c ≤ Q.items.length → s.operand 1 m1 = some a →
      exec (.output m1) s = .next s ∧ held (.output m1) s = true)

/-! ## Memory and the port -/

/-- R32: a checked read gives the whole cell, and raises outside `[0, MEM_LEN)`; its tag is `fetch` at the program
counter and `read` at the value of a Position parameter. -/
def Obligations.MemReadIsChecked : Prop :=
  (∀ (m : Memory) (a : Int) (g : AccessTag),
    (∀ n : Nat, a = n → ∀ v, m[n]? = some v → memRead m a g = .ok v) ∧
    ((a < 0 ∨ m.length ≤ a) → memRead m a g = .error ⟨.memoryOutOfBounds, some (.address a g)⟩)) ∧
  ∀ (s : State) (k : Nat), fetchAt s k = memRead s.mem (s.pc + k : Nat) .fetch ∧
    ∀ p, s.param k = some p → readParam s k .position = memRead s.mem p .read

/-- R33: a checked write changes its cell and no other and keeps the length, and raises outside `[0, MEM_LEN)`. -/
def Obligations.MemWriteIsChecked : Prop :=
  ∀ (m : Memory) (a v : Int),
    (0 ≤ a → a < m.length → ∃ m', memWrite m a v = .ok m' ∧ m'.length = m.length ∧
      ∀ (x : Int) (g : AccessTag), memRead m' x g = if x = a then .ok v else memRead m x g) ∧
    ((a < 0 ∨ m.length ≤ a) → memWrite m a v = .error ⟨.memoryOutOfBounds, some (.address a .write)⟩)

/-- R92: the constant source answers its constant at once, every time, and has no state. -/
def Obligations.ConstantSourceAnswers : Prop :=
  ∀ (s : State) (c : Word), s.source = .constant c → ioRead s = .value c s

/-- R93: the list source hands over its head and keeps its tail; it is exhausted when empty, and an Input that asks it
then raises `InputExhausted`; it never waits. -/
def Obligations.ListSourceAnswers : Prop :=
  ∀ (s : State) (L : List Word), s.source = .list L →
    (∀ v vs, L = v :: vs → ioRead s = .value v (s.setSource (.list vs))) ∧
    (L = [] → ioRead s = .exhausted) ∧ ioRead s ≠ .noAnswer ∧
    (∀ (m1 : Mode) (d : Int), L = [] → s.param 1 = some d → (cell s.mem d).isSome →
      ∃ t, exec (.input m1) s = .next t ∧ t.runState = .faulted ∧ t.faultCause = some .inputExhausted)

/-- R94: the queue source hands over its head and removes it, gives no answer while empty, and is never exhausted. -/
def Obligations.QueueSourceAnswers : Prop :=
  ∀ (s : State) (q : Nat) (Q : Queue), s.source = .queue q → s.queues[q]? = some Q →
    (∀ v vs, Q.items = v :: vs → ioRead s = .value v (s.setQueue q { Q with items := vs })) ∧
    (Q.items = [] → ioRead s = .noAnswer) ∧ ioRead s ≠ .exhausted

/-- Nothing already written to the log can influence the run (R88, R95, R97): with another record in the log the same
step happens, and both logs receive the same values at their ends, so the order of writes is kept (R41). -/
def Obligations.LogNeverInfluencesTheRun : Prop :=
  ∀ (s t : State) (out out' : List Word), s.sink = .log out → step s = .next t →
    ∃ ws, t.sink = .log (out ++ ws) ∧
      step (s.setSink (.log out')) = .next (t.setSink (.log (out' ++ ws)))

/-- Only Input reads the source (R36, R87): any other instruction executes alike whatever source it is given. -/
def Obligations.OnlyInputReadsTheSource : Prop :=
  ∀ (s t : State) (i : Instr) (src : Source), (∀ m1, i ≠ .input m1) → exec i s = .next t →
    exec i (s.setSource src) = .next (t.setSource src)

/-! ## Several interpreters -/

/-- The launched ring (R136 to R138), for every capacity; that queue 0 is seeded with both values even at a capacity of 0
or 1 is the model's choice (log entry 15): one interpreter per phase, each at its reset values with its own copy of the
program, reading `queue[i]`, writing `queue[(i+1) mod N]`, the last one mirrored; the queues seeded with the phases and
the driving value 0 behind the first. The mirror as a log is decision D22. -/
def Obligations.RingIsWiredAndSeeded : Prop :=
  ∀ (program phases : List Word) (cap bits : Option Nat),
    let y := System.ring program phases cap bits
    y.insts.length = phases.length ∧ y.queues.length = phases.length ∧
    ∀ (i : Nat) (p : Word), phases[i]? = some p →
      y.queues[i]? = some ⟨if i = 0 then [p, 0] else [p], cap⟩ ∧
      ∃ c, y.insts[i]? = some c ∧ c.mem = program ∧ c.pc = 0 ∧ c.runState = .running ∧ c.faultCause = none ∧
        c.faultInfo = none ∧ c.wordBits = bits ∧ c.source = .queue i ∧ c.sink = .queue ((i + 1) % phases.length) ∧
        (c.mirror = if i + 1 = phases.length then some ⟨[], 0⟩ else none)

/-- A ring whose Words fit the width and whose queues have room for the seed meets the system's invariant. -/
def Obligations.RingMeetsTheInvariant : Prop :=
  ∀ (program phases : List Word) (cap bits : Option Nat),
    widthOk bits = true → program.all (fitsWord bits) = true → phases.all (fitsWord bits) = true →
    (∀ c, cap = some c → 2 ≤ c) → (System.ring program phases cap bits).Inv

/-- Every move of the system keeps its invariant: every interpreter's invariant, one reader and one writer a queue. -/
def Obligations.MovesKeepTheSystemInvariant : Prop :=
  ∀ (y z : System) (m : Move), y.Inv → y.move m = some z → z.Inv

/-- A step of one interpreter changes no other interpreter, and no queue but those its own port names (R24, R40, R136);
if it faults it changes no queue either, so nobody is told (R142). -/
def Obligations.StepTouchesOnlyItself : Prop :=
  ∀ (y z : System) (i : Nat) (c c' : Interp), y.insts[i]? = some c → y.stepAt i = some z → z.insts[i]? = some c' →
    (∀ j, j ≠ i → z.insts[j]? = y.insts[j]?) ∧ z.insts.length = y.insts.length ∧
    (∀ q, c.source ≠ .queue q → c.sink ≠ .queue q → z.queues[q]? = y.queues[q]?) ∧
    (c'.runState = .faulted → z.queues = y.queues)

/-- Enabled steps of two different interpreters commute: neither disables the other, and both orders end in the same
system (R139). -/
def Obligations.StepsOfDifferentInterpretersCommute : Prop :=
  ∀ (y y1 y2 : System) (i j : Nat), y.Inv → i ≠ j → y.stepAt i = some y1 → y.stepAt j = some y2 →
    ∃ z, y1.stepAt j = some z ∧ y2.stepAt i = some z

/-- Every schedule of steps that runs until no step is enabled takes the same number of steps and ends in the same
system: the values read and written do not depend on the interleaving (R139). -/
def Obligations.EverySchedulesEndIsTheSame : Prop :=
  ∀ (y z1 z2 : System) (is1 is2 : List Nat), y.Inv →
    y.run (is1.map .step) = some z1 → y.run (is2.map .step) = some z2 → z1.quiet = true → z2.quiet = true →
    z1 = z2 ∧ is1.length = is2.length

/-- The caller's moves reach no interpreter's own state (R7, R130): memory, `pc`, run state, fault record, width, source
and sink stay, and so does every value written to an overflow sink; only the count of values taken from it grows. So
neither the end of the run nor its result changes (R141, R161). What the caller may do is log entry 12. -/
def Obligations.CallerMovesReachNoInterpreter : Prop :=
  ∀ (y z : System) (m : Move), (∀ i, m ≠ .step i) → y.move m = some z →
    z.insts.map Interp.beforeTakes = y.insts.map Interp.beforeTakes ∧
    z.ended = y.ended ∧ z.result = y.result ∧
    (∀ q, y.hasWriter q = true → y.hasReader q = true → z.queues[q]? = y.queues[q]?)

/-- The result of a pipeline run is the last value the last interpreter wrote to its overflow sink, once every
interpreter is Halted, whatever the caller has taken from it, and there is none before (R141, R161, decision D22). -/
def Obligations.ResultIsTheLastMirroredValue : Prop :=
  ∀ (y : System) (v : Word), y.result = some v ↔
    (∀ c ∈ y.insts, c.runState = .halted) ∧ ∃ cs c log n, y.insts = cs ++ [c] ∧ c.mirror = some ⟨log ++ [v], n⟩

/-- The model's own way to place an instruction (log entries 2 and 3): whatever the state, the very next step runs the
placed instruction, with operand Words of 0. -/
def Obligations.PlacedWordRunsNext : Prop :=
  ∀ (s : State) (nbits w : Nat) (i : Instr), decodeTableWord nbits w = some i →
    let t := s.withFetchWord nbits w
    step t = exec i t ∧ t.param 1 = some 0 ∧ t.param 2 = some 0 ∧ t.param 3 = some 0

/-- Once a pipeline run has a result it keeps it: no move of any interpreter or of the caller, the taking of that very
value included, changes it (R76, R141, R161, decision D22). -/
def Obligations.ResultSurvivesEveryMove : Prop :=
  ∀ (y z : System) (m : Move) (v : Word), y.result = some v → y.move m = some z → z.result = some v
end

