-- ==== Sys2Proof/Laws/Decode.lean ====
section
/-! SUPPORT. The decoder said once: what each of its parts answers, and when. Later proofs cite these and never unfold
`decode`. -/

namespace Sys2Proof

/-! ## Operation codes -/

/-- The table of R52 read in both directions. -/
theorem opOfCode_eq_none {c : Nat} (h : c ∉ [1, 2, 3, 4, 5, 6, 7, 8, 99]) : opOfCode c = none := by
  have none_found : opTable.find? (fun r => r.1 == c) = none := by
    rw [List.find?_eq_none]
    intro r hr
    simp only [opTable, List.mem_cons, List.not_mem_nil, or_false] at hr
    simp only [List.mem_cons, List.not_mem_nil, or_false, not_or] at h
    rcases hr with rfl | rfl | rfl | rfl | rfl | rfl | rfl | rfl | rfl <;> simp <;> omega
  simp [opOfCode, none_found]

theorem opOfCode_eq_some {c : Nat} {o : Op} : opOfCode c = some o ↔ c = codeOf o := by
  constructor
  · intro h
    by_cases hc : c ∈ [1, 2, 3, 4, 5, 6, 7, 8, 99]
    · simp only [List.mem_cons, List.not_mem_nil, or_false] at hc
      rcases hc with rfl | rfl | rfl | rfl | rfl | rfl | rfl | rfl | rfl <;> (cases h; rfl)
    · simp [opOfCode_eq_none hc] at h
  · rintro rfl
    cases o <;> rfl

/-- An operation code is two decimal digits (R51). -/
theorem codeOf_lt (o : Op) : codeOf o < 100 := by cases o <;> decide

/-! ## Mode digits -/

theorem digitOfMode_le (m : Mode) : digitOfMode m ≤ 1 := by cases m <;> decide

theorem decodeMode_ok {w i : Nat} {m : Mode} : decodeMode w i = .ok m ↔ digit (i + 1) w = digitOfMode m := by
  have inverse : ∀ d, modeOfDigit d = some m ↔ d = digitOfMode m := by
    intro d
    unfold modeOfDigit
    split <;> cases m <;> simp_all [digitOfMode]
  unfold decodeMode
  rw [← inverse]
  cases modeOfDigit (digit (i + 1) w) <;> simp

/-- A mode digit 0 or 1 is a mode (R56). -/
theorem decodeMode_legal {w i : Nat} (h : digit (i + 1) w ≤ 1) : ∃ m, decodeMode w i = .ok m := by
  obtain h | h : digit (i + 1) w = 0 ∨ digit (i + 1) w = 1 := by omega
  · exact ⟨.position, decodeMode_ok.2 h⟩
  · exact ⟨.immediate, decodeMode_ok.2 h⟩

/-- A mode digit 2 to 9 is none (R57). -/
theorem decodeMode_illegal {w i : Nat} (h : 2 ≤ digit (i + 1) w) :
    decodeMode w i = .error (.invalidAddressingMode w i) := by
  have no_mode : modeOfDigit (digit (i + 1) w) = none := by
    unfold modeOfDigit
    split <;> simp_all
  simp [decodeMode, no_mode]

/-! ## The mode loop -/

theorem decodeModes1_ok {mk : Mode → Instr} {w : Nat} {i : Instr} :
    decodeModes1 mk w = .ok i ↔ ∃ m1, digit 2 w = digitOfMode m1 ∧ i = mk m1 := by
  constructor
  · intro h
    unfold decodeModes1 at h
    cases h1 : decodeMode w 1 <;> simp [bind, Except.bind, pure, Except.pure, h1] at h
    exact ⟨_, decodeMode_ok.1 h1, h.symm⟩
  · rintro ⟨m1, h1, rfl⟩
    simp [decodeModes1, bind, Except.bind, pure, Except.pure, decodeMode_ok.2 h1]

theorem decodeModes2_ok {mk : Mode → Mode → Instr} {w : Nat} {i : Instr} :
    decodeModes2 mk w = .ok i ↔
      ∃ m1 m2, digit 2 w = digitOfMode m1 ∧ digit 3 w = digitOfMode m2 ∧ i = mk m1 m2 := by
  constructor
  · intro h
    unfold decodeModes2 at h
    cases h1 : decodeMode w 1 <;> cases h2 : decodeMode w 2 <;>
      simp [bind, Except.bind, pure, Except.pure, h1, h2] at h
    exact ⟨_, _, decodeMode_ok.1 h1, decodeMode_ok.1 h2, h.symm⟩
  · rintro ⟨m1, m2, h1, h2, rfl⟩
    simp [decodeModes2, bind, Except.bind, pure, Except.pure, decodeMode_ok.2 h1, decodeMode_ok.2 h2]

theorem decodeModes3_ok {mk : Mode → Mode → Mode → Instr} {w : Nat} {i : Instr} :
    decodeModes3 mk w = .ok i ↔ ∃ m1 m2 m3, digit 2 w = digitOfMode m1 ∧ digit 3 w = digitOfMode m2 ∧
      digit 4 w = digitOfMode m3 ∧ i = mk m1 m2 m3 := by
  constructor
  · intro h
    unfold decodeModes3 at h
    cases h1 : decodeMode w 1 <;> cases h2 : decodeMode w 2 <;> cases h3 : decodeMode w 3 <;>
      simp [bind, Except.bind, pure, Except.pure, h1, h2, h3] at h
    exact ⟨_, _, _, decodeMode_ok.1 h1, decodeMode_ok.1 h2, decodeMode_ok.1 h3, h.symm⟩
  · rintro ⟨m1, m2, m3, h1, h2, h3, rfl⟩
    simp [decodeModes3, bind, Except.bind, pure, Except.pure, decodeMode_ok.2 h1, decodeMode_ok.2 h2,
      decodeMode_ok.2 h3]

/-- The mode digits of an instruction fit in `param_count` decimal digits. -/
theorem modesValue_lt (i : Instr) : modesValue i.modes < 10 ^ i.op.paramCount := by
  have le := digitOfMode_le
  cases i with
  | add m1 m2 m3 => have := le m1; have := le m2; have := le m3; simp only [Instr.modes, modesValue, Instr.op, Op.paramCount]; omega
  | multiply m1 m2 m3 => have := le m1; have := le m2; have := le m3; simp only [Instr.modes, modesValue, Instr.op, Op.paramCount]; omega
  | lessThan m1 m2 m3 => have := le m1; have := le m2; have := le m3; simp only [Instr.modes, modesValue, Instr.op, Op.paramCount]; omega
  | equals m1 m2 m3 => have := le m1; have := le m2; have := le m3; simp only [Instr.modes, modesValue, Instr.op, Op.paramCount]; omega
  | jumpIfTrue m1 m2 => have := le m1; have := le m2; simp only [Instr.modes, modesValue, Instr.op, Op.paramCount]; omega
  | jumpIfFalse m1 m2 => have := le m1; have := le m2; simp only [Instr.modes, modesValue, Instr.op, Op.paramCount]; omega
  | input m1 => have := le m1; simp only [Instr.modes, modesValue, Instr.op, Op.paramCount]; omega
  | output m1 => have := le m1; simp only [Instr.modes, modesValue, Instr.op, Op.paramCount]; omega
  | halt => decide

/-- Decoding for a known operation answers `i` exactly when the declared mode digits are those of `i`. -/
theorem decodeOp_ok {o : Op} {w : Nat} {i : Instr} :
    decodeOp o w = .ok i ↔ i.op = o ∧ w / 100 % 10 ^ o.paramCount = modesValue i.modes := by
  have d2 : digit 2 w = w / 100 % 10 := rfl
  have d3 : digit 3 w = w / 1000 % 10 := rfl
  have d4 : digit 4 w = w / 10000 % 10 := rfl
  have le := digitOfMode_le
  have three : ∀ {mk : Mode → Mode → Mode → Instr}, (∀ a b c, (mk a b c).op = o ∧ (mk a b c).modes = [a, b, c]) →
      (i.op = o → ∃ a b c, i = mk a b c) →
      (decodeModes3 mk w = .ok i ↔ i.op = o ∧ w / 100 % 1000 = modesValue i.modes) := by
    intro mk hmk hinv
    rw [decodeModes3_ok, d2, d3, d4]
    constructor
    · rintro ⟨a, b, c, h1, h2, h3, rfl⟩
      refine ⟨(hmk a b c).1, ?_⟩
      rw [(hmk a b c).2]; simp only [modesValue]; omega
    · rintro ⟨ho, hv⟩
      obtain ⟨a, b, c, rfl⟩ := hinv ho
      have := le a; have := le b; have := le c
      rw [(hmk a b c).2] at hv; simp only [modesValue] at hv
      exact ⟨a, b, c, by omega, by omega, by omega, rfl⟩
  have two : ∀ {mk : Mode → Mode → Instr}, (∀ a b, (mk a b).op = o ∧ (mk a b).modes = [a, b]) →
      (i.op = o → ∃ a b, i = mk a b) →
      (decodeModes2 mk w = .ok i ↔ i.op = o ∧ w / 100 % 100 = modesValue i.modes) := by
    intro mk hmk hinv
    rw [decodeModes2_ok, d2, d3]
    constructor
    · rintro ⟨a, b, h1, h2, rfl⟩
      refine ⟨(hmk a b).1, ?_⟩
      rw [(hmk a b).2]; simp only [modesValue]; omega
    · rintro ⟨ho, hv⟩
      obtain ⟨a, b, rfl⟩ := hinv ho
      have := le a; have := le b
      rw [(hmk a b).2] at hv; simp only [modesValue] at hv
      exact ⟨a, b, by omega, by omega, rfl⟩
  have one : ∀ {mk : Mode → Instr}, (∀ a, (mk a).op = o ∧ (mk a).modes = [a]) → (i.op = o → ∃ a, i = mk a) →
      (decodeModes1 mk w = .ok i ↔ i.op = o ∧ w / 100 % 10 = modesValue i.modes) := by
    intro mk hmk hinv
    rw [decodeModes1_ok, d2]
    constructor
    · rintro ⟨a, h1, rfl⟩
      refine ⟨(hmk a).1, ?_⟩
      rw [(hmk a).2]; simp only [modesValue]; omega
    · rintro ⟨ho, hv⟩
      obtain ⟨a, rfl⟩ := hinv ho
      have := le a
      rw [(hmk a).2] at hv; simp only [modesValue] at hv
      exact ⟨a, by omega, rfl⟩
  cases o with
  | add => exact three (fun _ _ _ => ⟨rfl, rfl⟩) (fun h => by cases i <;> first | exact ⟨_, _, _, rfl⟩ | simp [Instr.op] at h)
  | multiply => exact three (fun _ _ _ => ⟨rfl, rfl⟩) (fun h => by cases i <;> first | exact ⟨_, _, _, rfl⟩ | simp [Instr.op] at h)
  | lessThan => exact three (fun _ _ _ => ⟨rfl, rfl⟩) (fun h => by cases i <;> first | exact ⟨_, _, _, rfl⟩ | simp [Instr.op] at h)
  | equals => exact three (fun _ _ _ => ⟨rfl, rfl⟩) (fun h => by cases i <;> first | exact ⟨_, _, _, rfl⟩ | simp [Instr.op] at h)
  | jumpIfTrue => exact two (fun _ _ => ⟨rfl, rfl⟩) (fun h => by cases i <;> first | exact ⟨_, _, rfl⟩ | simp [Instr.op] at h)
  | jumpIfFalse => exact two (fun _ _ => ⟨rfl, rfl⟩) (fun h => by cases i <;> first | exact ⟨_, _, rfl⟩ | simp [Instr.op] at h)
  | input => exact one (fun _ => ⟨rfl, rfl⟩) (fun h => by cases i <;> first | exact ⟨_, rfl⟩ | simp [Instr.op] at h)
  | output => exact one (fun _ => ⟨rfl, rfl⟩) (fun h => by cases i <;> first | exact ⟨_, rfl⟩ | simp [Instr.op] at h)
  | halt =>
    constructor
    · intro h
      obtain rfl := Except.ok.inj h
      exact ⟨rfl, Nat.mod_one _⟩
    · rintro ⟨ho, _⟩
      cases i <;> first | rfl | simp [Instr.op] at ho

/-- What `Decode` answers for a non-negative Word of a known operation code (R53). -/
theorem decode_known {w : Int} {o : Op} (h0 : 0 ≤ w) (ho : opOfCode (w.toNat % 100) = some o) :
    decode w = decodeOp o w.toNat := by
  rw [decode, if_neg (by omega), ho]

/-- What `Decode` answers for a Word of an unknown operation code (R55). -/
theorem decode_unknown {w : Int} (h0 : 0 ≤ w) (h : w.toNat % 100 ∉ [1, 2, 3, 4, 5, 6, 7, 8, 99]) :
    decode w = .error (.invalidOpcode w) := by
  rw [decode, if_neg (by omega), opOfCode_eq_none h]

end Sys2Proof
end

