-- ==== Sys2Proof/Laws/State.lean ====
section
/-! SUPPORT. One lemma per field per named update of the state, so that no later proof unfolds a record update. -/

namespace Sys2Proof.Machine

/-! Assigning `pc`. -/

@[simp] theorem setPc_mem (s : State) (n : Nat) : (s.setPc n).mem = s.mem := rfl
@[simp] theorem setPc_pc (s : State) (n : Nat) : (s.setPc n).pc = n := rfl
@[simp] theorem setPc_runState (s : State) (n : Nat) : (s.setPc n).runState = s.runState := rfl
@[simp] theorem setPc_faultCause (s : State) (n : Nat) : (s.setPc n).faultCause = s.faultCause := rfl
@[simp] theorem setPc_faultInfo (s : State) (n : Nat) : (s.setPc n).faultInfo = s.faultInfo := rfl
@[simp] theorem setPc_wordBits (s : State) (n : Nat) : (s.setPc n).wordBits = s.wordBits := rfl
@[simp] theorem setPc_source (s : State) (n : Nat) : (s.setPc n).source = s.source := rfl
@[simp] theorem setPc_sink (s : State) (n : Nat) : (s.setPc n).sink = s.sink := rfl
@[simp] theorem setPc_mirror (s : State) (n : Nat) : (s.setPc n).mirror = s.mirror := rfl
@[simp] theorem setPc_queues (s : State) (n : Nat) : (s.setPc n).queues = s.queues := rfl

/-! Consuming from a list source. -/

@[simp] theorem setSource_mem (s : State) (src : Source) : (s.setSource src).mem = s.mem := rfl
@[simp] theorem setSource_pc (s : State) (src : Source) : (s.setSource src).pc = s.pc := rfl
@[simp] theorem setSource_runState (s : State) (src : Source) : (s.setSource src).runState = s.runState := rfl
@[simp] theorem setSource_faultCause (s : State) (src : Source) : (s.setSource src).faultCause = s.faultCause := rfl
@[simp] theorem setSource_faultInfo (s : State) (src : Source) : (s.setSource src).faultInfo = s.faultInfo := rfl
@[simp] theorem setSource_wordBits (s : State) (src : Source) : (s.setSource src).wordBits = s.wordBits := rfl
@[simp] theorem setSource_source (s : State) (src : Source) : (s.setSource src).source = src := rfl
@[simp] theorem setSource_sink (s : State) (src : Source) : (s.setSource src).sink = s.sink := rfl
@[simp] theorem setSource_mirror (s : State) (src : Source) : (s.setSource src).mirror = s.mirror := rfl
@[simp] theorem setSource_queues (s : State) (src : Source) : (s.setSource src).queues = s.queues := rfl

/-! Appending to a log sink. -/

@[simp] theorem setSink_mem (s : State) (snk : Sink) : (s.setSink snk).mem = s.mem := rfl
@[simp] theorem setSink_pc (s : State) (snk : Sink) : (s.setSink snk).pc = s.pc := rfl
@[simp] theorem setSink_runState (s : State) (snk : Sink) : (s.setSink snk).runState = s.runState := rfl
@[simp] theorem setSink_faultCause (s : State) (snk : Sink) : (s.setSink snk).faultCause = s.faultCause := rfl
@[simp] theorem setSink_faultInfo (s : State) (snk : Sink) : (s.setSink snk).faultInfo = s.faultInfo := rfl
@[simp] theorem setSink_wordBits (s : State) (snk : Sink) : (s.setSink snk).wordBits = s.wordBits := rfl
@[simp] theorem setSink_source (s : State) (snk : Sink) : (s.setSink snk).source = s.source := rfl
@[simp] theorem setSink_sink (s : State) (snk : Sink) : (s.setSink snk).sink = snk := rfl
@[simp] theorem setSink_mirror (s : State) (snk : Sink) : (s.setSink snk).mirror = s.mirror := rfl
@[simp] theorem setSink_queues (s : State) (snk : Sink) : (s.setSink snk).queues = s.queues := rfl

/-! Changing one queue. -/

@[simp] theorem setQueue_mem (s : State) (q : Nat) (Q : Queue) : (s.setQueue q Q).mem = s.mem := rfl
@[simp] theorem setQueue_pc (s : State) (q : Nat) (Q : Queue) : (s.setQueue q Q).pc = s.pc := rfl
@[simp] theorem setQueue_runState (s : State) (q : Nat) (Q : Queue) : (s.setQueue q Q).runState = s.runState := rfl
@[simp] theorem setQueue_faultCause (s : State) (q : Nat) (Q : Queue) : (s.setQueue q Q).faultCause = s.faultCause := rfl
@[simp] theorem setQueue_faultInfo (s : State) (q : Nat) (Q : Queue) : (s.setQueue q Q).faultInfo = s.faultInfo := rfl
@[simp] theorem setQueue_wordBits (s : State) (q : Nat) (Q : Queue) : (s.setQueue q Q).wordBits = s.wordBits := rfl
@[simp] theorem setQueue_source (s : State) (q : Nat) (Q : Queue) : (s.setQueue q Q).source = s.source := rfl
@[simp] theorem setQueue_sink (s : State) (q : Nat) (Q : Queue) : (s.setQueue q Q).sink = s.sink := rfl
@[simp] theorem setQueue_mirror (s : State) (q : Nat) (Q : Queue) : (s.setQueue q Q).mirror = s.mirror := rfl
@[simp] theorem setQueue_queues (s : State) (q : Nat) (Q : Queue) : (s.setQueue q Q).queues = s.queues.set q Q := rfl

/-! Mirroring a written value. -/

@[simp] theorem mirrored_mem (s : State) (v : Word) : (s.mirrored v).mem = s.mem := rfl
@[simp] theorem mirrored_pc (s : State) (v : Word) : (s.mirrored v).pc = s.pc := rfl
@[simp] theorem mirrored_runState (s : State) (v : Word) : (s.mirrored v).runState = s.runState := rfl
@[simp] theorem mirrored_faultCause (s : State) (v : Word) : (s.mirrored v).faultCause = s.faultCause := rfl
@[simp] theorem mirrored_faultInfo (s : State) (v : Word) : (s.mirrored v).faultInfo = s.faultInfo := rfl
@[simp] theorem mirrored_wordBits (s : State) (v : Word) : (s.mirrored v).wordBits = s.wordBits := rfl
@[simp] theorem mirrored_source (s : State) (v : Word) : (s.mirrored v).source = s.source := rfl
@[simp] theorem mirrored_sink (s : State) (v : Word) : (s.mirrored v).sink = s.sink := rfl
@[simp] theorem mirrored_mirror (s : State) (v : Word) : (s.mirrored v).mirror = s.mirror.map (·.push v) := rfl
@[simp] theorem mirrored_queues (s : State) (v : Word) : (s.mirrored v).queues = s.queues := rfl

/-! Taking an exception (R127). -/

@[simp] theorem raise_mem (s : State) (e : Exn) : (raise s e).mem = s.mem := rfl
@[simp] theorem raise_pc (s : State) (e : Exn) : (raise s e).pc = s.pc := rfl
@[simp] theorem raise_runState (s : State) (e : Exn) : (raise s e).runState = .faulted := rfl
@[simp] theorem raise_faultCause (s : State) (e : Exn) : (raise s e).faultCause = some e.kind := rfl
@[simp] theorem raise_faultInfo (s : State) (e : Exn) : (raise s e).faultInfo = e.info := rfl
@[simp] theorem raise_wordBits (s : State) (e : Exn) : (raise s e).wordBits = s.wordBits := rfl
@[simp] theorem raise_source (s : State) (e : Exn) : (raise s e).source = s.source := rfl
@[simp] theorem raise_sink (s : State) (e : Exn) : (raise s e).sink = s.sink := rfl
@[simp] theorem raise_mirror (s : State) (e : Exn) : (raise s e).mirror = s.mirror := rfl
@[simp] theorem raise_queues (s : State) (e : Exn) : (raise s e).queues = s.queues := rfl

/-! Storing a result (R75). -/

@[simp] theorem stored_mem (s : State) (d v : Word) (n : Nat) : (s.stored d v n).mem = s.mem.set d.toNat v := rfl
@[simp] theorem stored_pc (s : State) (d v : Word) (n : Nat) : (s.stored d v n).pc = s.pc + n := rfl
@[simp] theorem stored_runState (s : State) (d v : Word) (n : Nat) : (s.stored d v n).runState = s.runState := rfl
@[simp] theorem stored_faultCause (s : State) (d v : Word) (n : Nat) : (s.stored d v n).faultCause = s.faultCause := rfl
@[simp] theorem stored_faultInfo (s : State) (d v : Word) (n : Nat) : (s.stored d v n).faultInfo = s.faultInfo := rfl
@[simp] theorem stored_wordBits (s : State) (d v : Word) (n : Nat) : (s.stored d v n).wordBits = s.wordBits := rfl
@[simp] theorem stored_source (s : State) (d v : Word) (n : Nat) : (s.stored d v n).source = s.source := rfl
@[simp] theorem stored_sink (s : State) (d v : Word) (n : Nat) : (s.stored d v n).sink = s.sink := rfl
@[simp] theorem stored_mirror (s : State) (d v : Word) (n : Nat) : (s.stored d v n).mirror = s.mirror := rfl
@[simp] theorem stored_queues (s : State) (d v : Word) (n : Nat) : (s.stored d v n).queues = s.queues := rfl

/-! An exception by kind and info (R127). -/

@[simp] theorem faultedWith_mem (s : State) (k : ErrorKind) (j : Option FaultInfo) : (s.faultedWith k j).mem = s.mem := rfl
@[simp] theorem faultedWith_pc (s : State) (k : ErrorKind) (j : Option FaultInfo) : (s.faultedWith k j).pc = s.pc := rfl
@[simp] theorem faultedWith_runState (s : State) (k : ErrorKind) (j : Option FaultInfo) : (s.faultedWith k j).runState = .faulted := rfl
@[simp] theorem faultedWith_faultCause (s : State) (k : ErrorKind) (j : Option FaultInfo) : (s.faultedWith k j).faultCause = some k := rfl
@[simp] theorem faultedWith_faultInfo (s : State) (k : ErrorKind) (j : Option FaultInfo) : (s.faultedWith k j).faultInfo = j := rfl
@[simp] theorem faultedWith_wordBits (s : State) (k : ErrorKind) (j : Option FaultInfo) : (s.faultedWith k j).wordBits = s.wordBits := rfl
@[simp] theorem faultedWith_source (s : State) (k : ErrorKind) (j : Option FaultInfo) : (s.faultedWith k j).source = s.source := rfl
@[simp] theorem faultedWith_sink (s : State) (k : ErrorKind) (j : Option FaultInfo) : (s.faultedWith k j).sink = s.sink := rfl
@[simp] theorem faultedWith_mirror (s : State) (k : ErrorKind) (j : Option FaultInfo) : (s.faultedWith k j).mirror = s.mirror := rfl
@[simp] theorem faultedWith_queues (s : State) (k : ErrorKind) (j : Option FaultInfo) : (s.faultedWith k j).queues = s.queues := rfl

/-! `MemoryOutOfBounds` (R123). -/

@[simp] theorem outOfBoundsAt_mem (s : State) (a : Word) (g : AccessTag) : (s.outOfBoundsAt a g).mem = s.mem := rfl
@[simp] theorem outOfBoundsAt_pc (s : State) (a : Word) (g : AccessTag) : (s.outOfBoundsAt a g).pc = s.pc := rfl
@[simp] theorem outOfBoundsAt_runState (s : State) (a : Word) (g : AccessTag) : (s.outOfBoundsAt a g).runState = .faulted := rfl
@[simp] theorem outOfBoundsAt_faultCause (s : State) (a : Word) (g : AccessTag) : (s.outOfBoundsAt a g).faultCause = some .memoryOutOfBounds := rfl
@[simp] theorem outOfBoundsAt_faultInfo (s : State) (a : Word) (g : AccessTag) : (s.outOfBoundsAt a g).faultInfo = some (.address a g) := rfl
@[simp] theorem outOfBoundsAt_wordBits (s : State) (a : Word) (g : AccessTag) : (s.outOfBoundsAt a g).wordBits = s.wordBits := rfl
@[simp] theorem outOfBoundsAt_source (s : State) (a : Word) (g : AccessTag) : (s.outOfBoundsAt a g).source = s.source := rfl
@[simp] theorem outOfBoundsAt_sink (s : State) (a : Word) (g : AccessTag) : (s.outOfBoundsAt a g).sink = s.sink := rfl
@[simp] theorem outOfBoundsAt_mirror (s : State) (a : Word) (g : AccessTag) : (s.outOfBoundsAt a g).mirror = s.mirror := rfl
@[simp] theorem outOfBoundsAt_queues (s : State) (a : Word) (g : AccessTag) : (s.outOfBoundsAt a g).queues = s.queues := rfl

/-! Placing an instruction word. -/

@[simp] theorem withFetchWord_mem (s : State) (b w : Nat) : (s.withFetchWord b w).mem = placeWords s.mem s.pc [(w : Word), 0, 0, 0] := rfl
@[simp] theorem withFetchWord_pc (s : State) (b w : Nat) : (s.withFetchWord b w).pc = s.pc := rfl
@[simp] theorem withFetchWord_runState (s : State) (b w : Nat) : (s.withFetchWord b w).runState = .running := rfl
@[simp] theorem withFetchWord_faultCause (s : State) (b w : Nat) : (s.withFetchWord b w).faultCause = none := rfl
@[simp] theorem withFetchWord_faultInfo (s : State) (b w : Nat) : (s.withFetchWord b w).faultInfo = none := rfl
@[simp] theorem withFetchWord_wordBits (s : State) (b w : Nat) : (s.withFetchWord b w).wordBits = s.wordBits := rfl
@[simp] theorem withFetchWord_source (s : State) (b w : Nat) : (s.withFetchWord b w).source = s.source := rfl
@[simp] theorem withFetchWord_sink (s : State) (b w : Nat) : (s.withFetchWord b w).sink = s.sink := rfl
@[simp] theorem withFetchWord_mirror (s : State) (b w : Nat) : (s.withFetchWord b w).mirror = s.mirror := rfl
@[simp] theorem withFetchWord_queues (s : State) (b w : Nat) : (s.withFetchWord b w).queues = s.queues := rfl

/-! Construction (R22). -/

@[simp] theorem construct_mem (p : List Word) (src : Source) (snk : Sink) (mir : Option Overflow) (b : Option Nat)
    (qs : List Queue) : (State.construct p src snk mir b qs).mem = p := rfl
@[simp] theorem construct_pc (p : List Word) (src : Source) (snk : Sink) (mir : Option Overflow) (b : Option Nat)
    (qs : List Queue) : (State.construct p src snk mir b qs).pc = 0 := rfl
@[simp] theorem construct_runState (p : List Word) (src : Source) (snk : Sink) (mir : Option Overflow) (b : Option Nat)
    (qs : List Queue) : (State.construct p src snk mir b qs).runState = .running := rfl
@[simp] theorem construct_faultCause (p : List Word) (src : Source) (snk : Sink) (mir : Option Overflow) (b : Option Nat)
    (qs : List Queue) : (State.construct p src snk mir b qs).faultCause = none := rfl
@[simp] theorem construct_faultInfo (p : List Word) (src : Source) (snk : Sink) (mir : Option Overflow) (b : Option Nat)
    (qs : List Queue) : (State.construct p src snk mir b qs).faultInfo = none := rfl
@[simp] theorem construct_wordBits (p : List Word) (src : Source) (snk : Sink) (mir : Option Overflow) (b : Option Nat)
    (qs : List Queue) : (State.construct p src snk mir b qs).wordBits = b := rfl
@[simp] theorem construct_source (p : List Word) (src : Source) (snk : Sink) (mir : Option Overflow) (b : Option Nat)
    (qs : List Queue) : (State.construct p src snk mir b qs).source = src := rfl
@[simp] theorem construct_sink (p : List Word) (src : Source) (snk : Sink) (mir : Option Overflow) (b : Option Nat)
    (qs : List Queue) : (State.construct p src snk mir b qs).sink = snk := rfl
@[simp] theorem construct_mirror (p : List Word) (src : Source) (snk : Sink) (mir : Option Overflow) (b : Option Nat)
    (qs : List Queue) : (State.construct p src snk mir b qs).mirror = mir := rfl
@[simp] theorem construct_queues (p : List Word) (src : Source) (snk : Sink) (mir : Option Overflow) (b : Option Nat)
    (qs : List Queue) : (State.construct p src snk mir b qs).queues = qs := rfl

/-- An exception is its kind and its info. -/
theorem raise_eq_faultedWith (s : State) (e : Exn) : raise s e = s.faultedWith e.kind e.info := rfl

/-- The raise for an invalid address. -/
theorem raise_outOfBounds (s : State) (a : Word) (g : AccessTag) : raise s (outOfBounds a g) = s.outOfBoundsAt a g := rfl

end Sys2Proof.Machine
end

