-- ==== Sys2Proof/Laws/Ops.lean ====
section
/-! SUPPORT. One lemma for each shared operation that says when it succeeds and with what, and one that says when it
raises and what: later proofs cite these and unfold nothing. -/

namespace Sys2Proof.Machine

/-! ## Memory -/

theorem validAddr_iff {m : Memory} {a : Int} : validAddr m a = true ↔ 0 ≤ a ∧ a < m.length := by
  simp [validAddr]

theorem checkAddr_ok {m : Memory} {a : Word} {g : AccessTag} {u : Unit} :
    checkAddr m a g = .ok u ↔ validAddr m a = true := by
  unfold checkAddr
  split <;> simp_all

theorem checkAddr_error {m : Memory} {a : Word} {g : AccessTag} {e : Exn} :
    checkAddr m a g = .error e ↔ validAddr m a = false ∧ e = outOfBounds a g := by
  unfold checkAddr
  split
  · simp_all
  · simp_all only [Except.error.injEq, Bool.not_eq_true, true_and]
    exact eq_comm

/-- A cell exists exactly at the valid addresses (R31). -/
theorem cell_isSome {m : Memory} {a : Word} : (cell m a).isSome = validAddr m a := by
  rw [Bool.eq_iff_iff, validAddr_iff]
  unfold cell
  split
  · simp; omega
  · simp; omega

theorem cell_eq_none {m : Memory} {a : Word} : cell m a = none ↔ validAddr m a = false := by
  rw [← cell_isSome]; cases cell m a <;> simp

theorem cell_natCast (m : Memory) (n : Nat) : cell m (n : Int) = m[n]? := by
  unfold cell
  rw [if_pos (by omega)]
  rfl

theorem memRead_ok {m : Memory} {a : Word} {g : AccessTag} {v : Word} :
    memRead m a g = .ok v ↔ cell m a = some v := by
  have hs := cell_isSome (m := m) (a := a)
  unfold memRead
  cases hc : checkAddr m a g with
  | error e =>
    have hv := (checkAddr_error.1 hc).1
    have : cell m a = none := cell_eq_none.2 hv
    simp [bind, Except.bind, this]
  | ok u =>
    have hv := checkAddr_ok.1 hc
    obtain ⟨h0, h1⟩ := validAddr_iff.1 hv
    have hlt : a.toNat < m.length := by omega
    simp [bind, Except.bind, pure, Except.pure, cell, h0, hlt]

theorem memRead_error {m : Memory} {a : Word} {g : AccessTag} {e : Exn} :
    memRead m a g = .error e ↔ cell m a = none ∧ e = outOfBounds a g := by
  unfold memRead
  rw [cell_eq_none]
  cases hc : checkAddr m a g with
  | error e' =>
    obtain ⟨hv, rfl⟩ := checkAddr_error.1 hc
    simp [bind, Except.bind, hv, eq_comm]
  | ok u =>
    simp [bind, Except.bind, pure, Except.pure, checkAddr_ok.1 hc]

theorem memWrite_ok {m : Memory} {a v : Word} {m' : Memory} :
    memWrite m a v = .ok m' ↔ validAddr m a = true ∧ m' = m.set a.toNat v := by
  unfold memWrite
  cases hc : checkAddr m a .write with
  | error e => simp [bind, Except.bind, (checkAddr_error.1 hc).1]
  | ok u => simp [bind, Except.bind, pure, Except.pure, checkAddr_ok.1 hc, eq_comm]

theorem memWrite_error {m : Memory} {a v : Word} {e : Exn} :
    memWrite m a v = .error e ↔ validAddr m a = false ∧ e = outOfBounds a .write := by
  unfold memWrite
  cases hc : checkAddr m a .write with
  | error e' =>
    obtain ⟨hv, rfl⟩ := checkAddr_error.1 hc
    simp [bind, Except.bind, hv, eq_comm]
  | ok u => simp [bind, Except.bind, pure, Except.pure, checkAddr_ok.1 hc]

/-- Reading a cell after a write elsewhere gives what it gave before (R33). -/
theorem cell_set_ne {m : Memory} {a d v : Int} (hd : 0 ≤ d) (h : a ≠ d) : cell (m.set d.toNat v) a = cell m a := by
  unfold cell
  split
  · rw [List.getElem?_set_ne]; omega
  · rfl

/-- Reading a cell after a write to it gives the value written (R33, R39). -/
theorem cell_set_self {m : Memory} {d v : Word} (h : validAddr m d = true) : cell (m.set d.toNat v) d = some v := by
  obtain ⟨h0, h1⟩ := validAddr_iff.1 h
  have : d.toNat < m.length := by omega
  simp [cell, h0, this]

/-! ## Fetching and operands -/

theorem fetchAt_ok {s : State} {k : Nat} {v : Word} : fetchAt s k = .ok v ↔ s.param k = some v := by
  unfold fetchAt State.param
  rw [memRead_ok, cell_natCast]

theorem fetchAt_error {s : State} {k : Nat} {e : Exn} :
    fetchAt s k = .error e ↔ s.param k = none ∧ e = outOfBounds ((s.pc + k : Nat) : Int) .fetch := by
  unfold fetchAt State.param
  rw [memRead_error, cell_natCast]

theorem writeParam_ok {s : State} {k : Nat} {v : Word} : writeParam s k = .ok v ↔ s.param k = some v := fetchAt_ok

theorem writeParam_error {s : State} {k : Nat} {e : Exn} :
    writeParam s k = .error e ↔ s.param k = none ∧ e = outOfBounds ((s.pc + k : Nat) : Int) .fetch := fetchAt_error

theorem readParam_ok {s : State} {k : Nat} {m : Mode} {v : Word} :
    readParam s k m = .ok v ↔ s.operand k m = some v := by
  unfold readParam State.operand
  cases hf : fetchAt s k with
  | error e => simp [bind, Except.bind, (fetchAt_error.1 hf).1]
  | ok raw =>
    cases m
    · simpa [bind, Except.bind, fetchAt_ok.1 hf] using memRead_ok
    · simp [bind, Except.bind, pure, Except.pure, fetchAt_ok.1 hf]

/-- A read parameter raises exactly when its Word is not in memory, or is a Position Word that is no valid address. -/
theorem readParam_error {s : State} {k : Nat} {m : Mode} {e : Exn} :
    readParam s k m = .error e ↔
      (s.param k = none ∧ e = outOfBounds ((s.pc + k : Nat) : Int) .fetch) ∨
      (∃ p, s.param k = some p ∧ m = .position ∧ cell s.mem p = none ∧ e = outOfBounds p .read) := by
  unfold readParam
  cases hf : fetchAt s k with
  | error e' =>
    obtain ⟨hp, rfl⟩ := fetchAt_error.1 hf
    simp [bind, Except.bind, hp, eq_comm]
  | ok raw =>
    have hp := fetchAt_ok.1 hf
    cases m
    · simpa [bind, Except.bind, hp] using memRead_error
    · simp [bind, Except.bind, pure, Except.pure, hp]

theorem fetchDecode_ok {s : State} {i : Instr} :
    fetchDecode s = .ok i ↔ ∃ w, s.param 0 = some w ∧ decode w = .ok i := by
  unfold fetchDecode
  cases hf : fetchAt s 0 with
  | error e => simp [bind, Except.bind, (fetchAt_error.1 hf).1]
  | ok w =>
    have hp := fetchAt_ok.1 hf
    cases hd : decode w <;>
      simp [bind, Except.bind, pure, Except.pure, throw, throwThe, MonadExceptOf.throw, hp, hd]

theorem fetchDecode_error {s : State} {e : Exn} :
    fetchDecode s = .error e ↔
      (s.param 0 = none ∧ e = outOfBounds (s.pc : Int) .fetch) ∨
      (∃ w de, s.param 0 = some w ∧ decode w = .error de ∧ e = exnOfDecodeError de) := by
  unfold fetchDecode
  cases hf : fetchAt s 0 with
  | error e' =>
    obtain ⟨hp, rfl⟩ := fetchAt_error.1 hf
    simp [bind, Except.bind, hp, eq_comm]
  | ok w =>
    have hp := fetchAt_ok.1 hf
    cases hd : decode w <;>
      simp [bind, Except.bind, pure, Except.pure, throw, throwThe, MonadExceptOf.throw, hp, hd, eq_comm]

/-! ## The end of a step -/

theorem storeWord_ok {s t : State} {d v : Word} {n : Nat} :
    storeWord s d v n = .ok t ↔ validAddr s.mem d = true ∧ t = s.stored d v n := by
  unfold storeWord
  cases hm : memWrite s.mem d v with
  | error e => simp [bind, Except.bind, (memWrite_error.1 hm).1]
  | ok m' =>
    obtain ⟨hv, rfl⟩ := memWrite_ok.1 hm
    simp [bind, Except.bind, pure, Except.pure, hv, State.stored, eq_comm]

theorem storeWord_error {s : State} {d v : Word} {n : Nat} {e : Exn} :
    storeWord s d v n = .error e ↔ validAddr s.mem d = false ∧ e = outOfBounds d .write := by
  unfold storeWord
  cases hm : memWrite s.mem d v with
  | error e' =>
    obtain ⟨hv, rfl⟩ := memWrite_error.1 hm
    simp [bind, Except.bind, hv, eq_comm]
  | ok m' => simp [bind, Except.bind, pure, Except.pure, (memWrite_ok.1 hm).1]

@[simp] theorem complete_ok (s t : State) : complete s (.ok t) = .next t := rfl
@[simp] theorem complete_error (s : State) (e : Exn) : complete s (.error e) = .next (raise s e) := rfl

theorem inputDest_ok {s : State} {d : Word} :
    inputDest s = .ok d ↔ s.param 1 = some d ∧ validAddr s.mem d = true := by
  unfold inputDest
  cases hw : writeParam s 1 with
  | error e => simp [bind, Except.bind, (writeParam_error.1 hw).1]
  | ok d' =>
    have hp := writeParam_ok.1 hw
    cases hc : checkAddr s.mem d' .write with
    | error e =>
      have hv := (checkAddr_error.1 hc).1
      simp [bind, Except.bind, hc, hp]
      rintro rfl
      simp [hv]
    | ok u =>
      have hv := checkAddr_ok.1 hc
      simp [bind, Except.bind, pure, Except.pure, hc, hp]
      rintro rfl
      exact hv

theorem inputDest_error {s : State} {e : Exn} :
    inputDest s = .error e ↔
      (s.param 1 = none ∧ e = outOfBounds ((s.pc + 1 : Nat) : Int) .fetch) ∨
      (∃ d, s.param 1 = some d ∧ validAddr s.mem d = false ∧ e = outOfBounds d .write) := by
  unfold inputDest
  cases hw : writeParam s 1 with
  | error e' =>
    obtain ⟨hp, rfl⟩ := writeParam_error.1 hw
    simp only [bind, Except.bind, hp, Except.error.injEq, true_and, reduceCtorEq, false_and, exists_false, or_false]
    exact eq_comm
  | ok d' =>
    have hp := writeParam_ok.1 hw
    cases hc : checkAddr s.mem d' .write with
    | error e' =>
      obtain ⟨hv, rfl⟩ := checkAddr_error.1 hc
      simp only [bind, Except.bind, hc, hp, Except.error.injEq, reduceCtorEq, false_and, false_or, Option.some.injEq]
      exact ⟨fun h => ⟨d', rfl, hv, h.symm⟩, fun ⟨d, h1, _, h2⟩ => h1 ▸ h2.symm⟩
    | ok u =>
      have hv := checkAddr_ok.1 hc
      simp only [bind, Except.bind, pure, Except.pure, hc, hp, reduceCtorEq, false_and, false_or, Option.some.injEq,
        false_iff]
      rintro ⟨d, rfl, h, _⟩
      simp [hv] at h

/-! ## The port -/

/-- What a read transaction does when it answers a value (R89): only the source, or the one queue it names, changes. -/
theorem ioRead_value {s t : State} {v : Word} (h : ioRead s = .value v t) :
    (s.source = .constant v ∧ t = s) ∨
    (∃ vs, s.source = .list (v :: vs) ∧ t = s.setSource (.list vs)) ∨
    (∃ q Q vs, s.source = .queue q ∧ s.queues[q]? = some Q ∧ Q.items = v :: vs ∧
      t = s.setQueue q { Q with items := vs }) := by
  unfold ioRead at h
  split at h
  · simp_all
  · simp at h
  · simp_all
  · rename_i q hs
    split at h
    · simp at h
    · rename_i Q hQ
      split at h
      · simp at h
      · rename_i v' vs hi
        simp only [ReadAnswer.value.injEq] at h
        obtain ⟨rfl, rfl⟩ := h
        exact .inr (.inr ⟨q, Q, vs, hs, hQ, hi, rfl⟩)

/-- A source is exhausted only when it is an empty list (R93, R124). -/
theorem ioRead_exhausted {s : State} : ioRead s = .exhausted ↔ s.source = .list [] := by
  unfold ioRead
  constructor
  · intro h
    split at h
    · simp at h
    · assumption
    · simp at h
    · split at h
      · simp at h
      · split at h <;> simp at h
  · intro h
    rw [h]

/-- A source gives no answer only when it is a queue that is empty or does not exist (R94). -/
theorem ioRead_noAnswer {s : State} (h : ioRead s = .noAnswer) :
    ∃ q, s.source = .queue q ∧ ∀ Q, s.queues[q]? = some Q → Q.items = [] := by
  unfold ioRead at h
  split at h
  · simp at h
  · simp at h
  · simp at h
  · rename_i q hs
    refine ⟨q, hs, fun Q hQ => ?_⟩
    rw [hQ] at h
    simp only at h
    split at h
    · assumption
    · simp at h

/-- What an accepted write transaction does (R90): it appends to the log, or to the one queue the sink names, and to
the mirror. -/
theorem ioWrite_some {s t : State} {v : Word} (h : ioWrite s v = some t) :
    (∃ out, s.sink = .log out ∧ t = (s.setSink (.log (out ++ [v]))).mirrored v) ∨
    (∃ q Q, s.sink = .queue q ∧ s.queues[q]? = some Q ∧ Q.hasRoom = true ∧
      t = (s.setQueue q (Q.push v)).mirrored v) := by
  unfold ioWrite at h
  split at h
  · simp_all
  · rename_i q hs
    split at h
    · simp at h
    · rename_i Q hQ
      split at h
      · rename_i hr
        simp only [Option.some.injEq] at h
        exact .inr ⟨q, Q, hs, hQ, hr, h.symm⟩
      · simp at h

/-- A sink does not accept only when it is a queue that is full or does not exist (R90, R91). -/
theorem ioWrite_none {s : State} {v : Word} (h : ioWrite s v = none) :
    ∃ q, s.sink = .queue q ∧ ∀ Q, s.queues[q]? = some Q → Q.hasRoom = false := by
  unfold ioWrite at h
  split at h
  · simp at h
  · rename_i q hs
    refine ⟨q, hs, fun Q hQ => ?_⟩
    rw [hQ] at h
    simpa using h

@[simp] theorem push_items (Q : Queue) (v : Word) : (Q.push v).items = Q.items ++ [v] := rfl
@[simp] theorem overflow_push_log (o : Overflow) (v : Word) : (o.push v).log = o.log ++ [v] := rfl
@[simp] theorem overflow_push_taken (o : Overflow) (v : Word) : (o.push v).taken = o.taken := rfl

/-- The overflow sink stays well formed when a representable value is handed to it. -/
theorem overflow_push_wf {b : Option Nat} {o : Overflow} {v : Word} (h : o.wf b = true) (hv : fitsWord b v = true) :
    (o.push v).wf b = true := by
  simp only [Overflow.wf, Bool.and_eq_true, decide_eq_true_eq, overflow_push_log, overflow_push_taken, List.all_append,
    List.all_cons, List.all_nil, Bool.and_true, List.length_append] at h ⊢
  exact ⟨⟨h.1, hv⟩, by omega⟩

@[simp] theorem push_capacity (Q : Queue) (v : Word) : (Q.push v).capacity = Q.capacity := rfl

/-! ## Words and the memory form -/

theorem exactResult_ok {b : Option Nat} {v v' : Word} :
    exactResult b v = .ok v' ↔ fitsWord b v = true ∧ v' = v := by
  unfold exactResult
  split
  · simp_all only [Except.ok.injEq, true_and]
    exact eq_comm
  · simp_all

theorem exactResult_error {b : Option Nat} {v : Word} {e : Exn} :
    exactResult b v = .error e ↔ fitsWord b v = false ∧ e = arithmeticOverflow := by
  unfold exactResult
  split
  · simp_all
  · simp_all only [Except.error.injEq, Bool.not_eq_true, true_and]
    exact eq_comm

/-- A truth value is representable in every width of at least 2 bits (R107). -/
theorem fitsWord_truthWord {b : Option Nat} (h : widthOk b = true) (c : Bool) : fitsWord b (truthWord c) = true := by
  cases b with
  | none => rfl
  | some W =>
    have h2 : 2 ≤ W := by simpa [widthOk] using h
    have hp : 2 ≤ 2 ^ (W - 1) := by
      calc 2 = 2 ^ 1 := rfl
        _ ≤ 2 ^ (W - 1) := Nat.pow_le_pow_right (by omega) (by omega)
    simp only [fitsWord, decide_eq_true_eq]
    generalize 2 ^ (W - 1) = p at hp
    cases c <;> simp only [truthWord] <;> constructor <;> simp <;> omega

theorem memory_wf_iff {b : Option Nat} {m : Memory} : Memory.wf b m = true ↔ ∀ v ∈ m, fitsWord b v = true := by
  simp [Memory.wf, List.all_eq_true]

/-- A write keeps the memory's form. -/
theorem memory_wf_set {b : Option Nat} {m : Memory} {n : Nat} {v : Word} (h : Memory.wf b m = true)
    (hv : fitsWord b v = true) : Memory.wf b (m.set n v) = true := by
  rw [memory_wf_iff] at *
  intro x hx
  rcases List.mem_or_eq_of_mem_set hx with hx | rfl
  · exact h x hx
  · exact hv

theorem memWrite_keeps_wf {b : Option Nat} {m m' : Memory} {a v : Word} (h : Memory.wf b m = true)
    (hv : fitsWord b v = true) (hw : memWrite m a v = .ok m') : Memory.wf b m' = true := by
  obtain ⟨_, rfl⟩ := memWrite_ok.1 hw
  exact memory_wf_set h hv

theorem memWrite_length {m m' : Memory} {a v : Word} (hw : memWrite m a v = .ok m') : m'.length = m.length := by
  obtain ⟨_, rfl⟩ := memWrite_ok.1 hw
  simp

/-- Placing representable Words keeps the memory's form. -/
theorem placeWords_keeps_wf {b : Option Nat} {m : Memory} {a : Nat} {ws : List Word} (h : Memory.wf b m = true)
    (h0 : fitsWord b 0 = true) (hw : ∀ v ∈ ws, fitsWord b v = true) : Memory.wf b (placeWords m a ws) = true := by
  rw [memory_wf_iff] at *
  intro v hv
  simp only [placeWords, List.mem_append, List.mem_replicate] at hv
  rcases hv with ((hv | ⟨_, rfl⟩) | hv) | hv
  · exact h v (List.mem_of_mem_take hv)
  · exact h0
  · exact hw v hv
  · exact h v (List.mem_of_mem_drop hv)

theorem reset_memory_wf : Memory.wf State.reset.wordBits State.reset.mem = true := rfl

/-- A cell of a well-formed memory is representable. -/
theorem fitsWord_of_cell {b : Option Nat} {m : Memory} {a v : Word} (h : Memory.wf b m = true)
    (hc : cell m a = some v) : fitsWord b v = true := by
  unfold cell at hc
  split at hc
  · exact memory_wf_iff.1 h v (List.mem_of_getElem? hc)
  · simp at hc

/-- A parameter Word of a well-formed memory is representable. -/
theorem fitsWord_of_param {s : State} {k : Nat} {v : Word} (h : Memory.wf s.wordBits s.mem = true)
    (hp : s.param k = some v) : fitsWord s.wordBits v = true :=
  memory_wf_iff.1 h v (List.mem_of_getElem? hp)

/-- An operand taken from a well-formed memory is representable. -/
theorem fitsWord_of_operand {s : State} {k : Nat} {m : Mode} {v : Word} (h : Memory.wf s.wordBits s.mem = true)
    (ho : s.operand k m = some v) : fitsWord s.wordBits v = true := by
  unfold State.operand at ho
  split at ho
  · simp at ho
  · rename_i raw hp
    obtain rfl := Option.some.inj ho
    exact fitsWord_of_param h hp
  · exact fitsWord_of_cell h ho

end Sys2Proof.Machine
end

