-- ==== Sys2Proof/Laws/Exec.lean ====
section
/-! SUPPORT. What an executed instruction and a step can do, said once (`exec_cases`, `step_cases`): every invariant and
frame is derived from these, and no later proof unfolds a meaning to find its branches. -/

namespace Sys2Proof.Machine

/-! ## The two shared execute phases -/

/-- A format F2R1W operation completes when its operands are there, the result exists and the destination is valid. -/
theorem binaryToMemory_completes {compute : Word → Word → Except Exn Word} {m1 m2 : Mode} {s : State} {a b d v : Word}
    (ha : s.operand 1 m1 = some a) (hb : s.operand 2 m2 = some b) (hd : s.param 3 = some d)
    (hc : compute a b = .ok v) (hv : validAddr s.mem d = true) :
    binaryToMemory compute m1 m2 s = .next (s.stored d v 4) := by
  simp [binaryToMemory, bind, Except.bind, readParam_ok.2 ha, readParam_ok.2 hb, writeParam_ok.2 hd, hc,
    storeWord_ok.2 ⟨hv, rfl⟩]

/-- The state after an exception of rule R120's table: a record the table has. -/
def Recorded (s : State) (e : Exn) : Prop := faultRecordOk s.wordBits (some e.kind) e.info = true

theorem recorded_outOfBounds (s : State) (a : Word) (g : AccessTag) : Recorded s (outOfBounds a g) := rfl
theorem recorded_inputExhausted (s : State) : Recorded s inputExhausted := rfl

theorem recorded_of_readParam {s : State} {k : Nat} {m : Mode} {e : Exn} (h : readParam s k m = .error e) :
    Recorded s e := by
  obtain ⟨_, rfl⟩ | ⟨p, _, _, _, rfl⟩ := readParam_error.1 h <;> exact recorded_outOfBounds ..

theorem recorded_of_exactResult {s : State} {v : Word} {e : Exn} (h : exactResult s.wordBits v = .error e) :
    Recorded s e := by
  obtain ⟨hf, rfl⟩ := exactResult_error.1 h
  show faultRecordOk s.wordBits (some .arithmeticOverflow) none = true
  cases hw : s.wordBits with
  | none => simp [hw, fitsWord] at hf
  | some W => rfl

/-- The two ways a format F2R1W operation ends. -/
theorem binaryToMemory_cases {compute : Word → Word → Except Exn Word} {m1 m2 : Mode} {s t : State}
    (hcomp : ∀ a b e, compute a b = .error e → Recorded s e) (h : binaryToMemory compute m1 m2 s = .next t) :
    (∃ e, Recorded s e ∧ t = raise s e) ∨
    (∃ a b d v, s.operand 1 m1 = some a ∧ s.operand 2 m2 = some b ∧ s.param 3 = some d ∧ compute a b = .ok v ∧
      validAddr s.mem d = true ∧ t = s.stored d v 4) := by
  unfold binaryToMemory at h
  cases h1 : readParam s 1 m1 with
  | error e =>
    simp only [bind, Except.bind, h1, complete_error, Host.Outcome.next.injEq] at h
    exact .inl ⟨e, recorded_of_readParam h1, h.symm⟩
  | ok a =>
    cases h2 : readParam s 2 m2 with
    | error e =>
      simp only [bind, Except.bind, h1, h2, complete_error, Host.Outcome.next.injEq] at h
      exact .inl ⟨e, recorded_of_readParam h2, h.symm⟩
    | ok b =>
      cases h3 : writeParam s 3 with
      | error e =>
        obtain ⟨_, rfl⟩ := writeParam_error.1 h3
        simp only [bind, Except.bind, h1, h2, h3, complete_error, Host.Outcome.next.injEq] at h
        exact .inl ⟨_, recorded_outOfBounds .., h.symm⟩
      | ok d =>
        cases h4 : compute a b with
        | error e =>
          simp only [bind, Except.bind, h1, h2, h3, h4, complete_error, Host.Outcome.next.injEq] at h
          exact .inl ⟨e, hcomp a b e h4, h.symm⟩
        | ok v =>
          cases h5 : storeWord s d v 4 with
          | error e =>
            obtain ⟨_, rfl⟩ := storeWord_error.1 h5
            simp only [bind, Except.bind, h1, h2, h3, h4, h5, complete_error, Host.Outcome.next.injEq] at h
            exact .inl ⟨_, recorded_outOfBounds .., h.symm⟩
          | ok u =>
            obtain ⟨hv, rfl⟩ := storeWord_ok.1 h5
            simp only [bind, Except.bind, h1, h2, h3, h4, h5, complete_ok, Host.Outcome.next.injEq] at h
            exact .inr ⟨a, b, d, v, readParam_ok.1 h1, readParam_ok.1 h2, writeParam_ok.1 h3, h4, hv, h.symm⟩

/-- The three ways a jump ends: an exception, taken, fallen through (R102). -/
theorem jumpWhen_cases {taken : Word → Bool} {m1 m2 : Mode} {s t : State} (h : jumpWhen taken m1 m2 s = .next t) :
    (∃ e, Recorded s e ∧ t = raise s e) ∨
    (∃ a b, s.operand 1 m1 = some a ∧ s.operand 2 m2 = some b ∧
      ((taken a = true ∧ validAddr s.mem b = true ∧ t = s.setPc b.toNat) ∨
       (taken a = false ∧ t = s.setPc (s.pc + 3)))) := by
  unfold jumpWhen at h
  cases h1 : readParam s 1 m1 with
  | error e =>
    simp only [bind, Except.bind, h1, complete_error, Host.Outcome.next.injEq] at h
    exact .inl ⟨e, recorded_of_readParam h1, h.symm⟩
  | ok a =>
    cases h2 : readParam s 2 m2 with
    | error e =>
      simp only [bind, Except.bind, h1, h2, complete_error, Host.Outcome.next.injEq] at h
      exact .inl ⟨e, recorded_of_readParam h2, h.symm⟩
    | ok b =>
      cases ht : taken a with
      | true =>
        cases hc : checkAddr s.mem b .jump with
        | error e =>
          obtain ⟨_, rfl⟩ := checkAddr_error.1 hc
          simp [bind, Except.bind, h1, h2, ht, hc] at h
          exact .inl ⟨_, recorded_outOfBounds .., h.symm⟩
        | ok u =>
          simp [bind, Except.bind, pure, Except.pure, h1, h2, ht, hc] at h
          exact .inr ⟨a, b, readParam_ok.1 h1, readParam_ok.1 h2, .inl ⟨ht, checkAddr_ok.1 hc, h.symm⟩⟩
      | false =>
        simp [bind, Except.bind, pure, Except.pure, h1, h2, ht] at h
        exact .inr ⟨a, b, readParam_ok.1 h1, readParam_ok.1 h2, .inr ⟨ht, h.symm⟩⟩

/-! ## An executed instruction -/

/-- The ways an instruction completes: what it computed from, and the state it leaves. -/
inductive Ran : Instr → State → State → Prop where
  /-- Format F2R1W: the result is representable wherever the memory is (R5, R107). -/
  | stores {i : Instr} {s : State} {d v : Word} (hi : Instr.destParam i = some 3) (hd : s.param 3 = some d)
      (hv : validAddr s.mem d = true) (hf : widthOk s.wordBits = true → fitsWord s.wordBits v = true) :
      Ran i s (s.stored d v 4)
  /-- Input, answered (R85). -/
  | inputs {m1 : Mode} {s u : State} {d v : Word} (hd : s.param 1 = some d) (hv : validAddr s.mem d = true)
      (hr : ioRead s = .value v u) : Ran (.input m1) s (u.stored d v 2)
  /-- Output, accepted (R86). -/
  | outputs {m1 : Mode} {s u : State} {a : Word} (ha : s.operand 1 m1 = some a) (hw : ioWrite s a = some u) :
      Ran (.output m1) s (u.setPc (s.pc + 2))
  /-- A taken jump (R102). -/
  | jumps {i : Instr} {s : State} {m1 m2 : Mode} {b : Word} (hi : i = .jumpIfTrue m1 m2 ∨ i = .jumpIfFalse m1 m2)
      (hb : s.operand 2 m2 = some b) (hv : validAddr s.mem b = true) : Ran i s (s.setPc b.toNat)
  /-- A jump not taken (R102). -/
  | falls {i : Instr} {s : State} {m1 m2 : Mode} {b : Word} (hi : i = .jumpIfTrue m1 m2 ∨ i = .jumpIfFalse m1 m2)
      (hb : s.operand 2 m2 = some b) : Ran i s (s.setPc (s.pc + 3))
  /-- Halt (R110). -/
  | halts {s : State} : Ran .halt s { s with runState := .halted, pc := s.pc + 1 }

/-- What an instruction can do: take an exception, wait, or complete. -/
theorem exec_cases {i : Instr} {s t : State} (h : exec i s = .next t) :
    (∃ e, Recorded s e ∧ t = raise s e) ∨ (held i s = true ∧ t = s) ∨ Ran i s t := by
  have binary : ∀ {compute : Word → Word → Except Exn Word} {m1 m2 : Mode}, Instr.destParam i = some 3 →
      (∀ a b e, compute a b = .error e → Recorded s e) →
      (∀ a b v, compute a b = .ok v → widthOk s.wordBits = true → fitsWord s.wordBits v = true) →
      binaryToMemory compute m1 m2 s = .next t →
      (∃ e, Recorded s e ∧ t = raise s e) ∨ (held i s = true ∧ t = s) ∨ Ran i s t := by
    intro compute m1 m2 hi he hf h
    obtain hr | ⟨a, b, d, v, _, _, hd, hc, hv, rfl⟩ := binaryToMemory_cases he h
    · exact .inl hr
    · exact .inr (.inr (.stores hi hd hv (hf a b v hc)))
  have jump : ∀ {taken : Word → Bool} {m1 m2 : Mode}, (i = .jumpIfTrue m1 m2 ∨ i = .jumpIfFalse m1 m2) →
      jumpWhen taken m1 m2 s = .next t →
      (∃ e, Recorded s e ∧ t = raise s e) ∨ (held i s = true ∧ t = s) ∨ Ran i s t := by
    intro taken m1 m2 hi h
    obtain hr | ⟨a, b, _, hb, ⟨_, hv, rfl⟩ | ⟨_, rfl⟩⟩ := jumpWhen_cases h
    · exact .inl hr
    · exact .inr (.inr (.jumps hi hb hv))
    · exact .inr (.inr (.falls hi hb))
  cases i with
  | add m1 m2 m3 =>
    exact binary rfl (fun a b e => recorded_of_exactResult) (fun a b v hc _ => by
      obtain ⟨hf, rfl⟩ := exactResult_ok.1 hc; exact hf) h
  | multiply m1 m2 m3 =>
    exact binary rfl (fun a b e => recorded_of_exactResult) (fun a b v hc _ => by
      obtain ⟨hf, rfl⟩ := exactResult_ok.1 hc; exact hf) h
  | lessThan m1 m2 m3 =>
    exact binary rfl (fun a b e he => by simp at he) (fun a b v hc hw => by
      obtain rfl := Except.ok.inj hc; exact fitsWord_truthWord hw _) h
  | equals m1 m2 m3 =>
    exact binary rfl (fun a b e he => by simp at he) (fun a b v hc hw => by
      obtain rfl := Except.ok.inj hc; exact fitsWord_truthWord hw _) h
  | jumpIfTrue m1 m2 => exact jump (.inl rfl) h
  | jumpIfFalse m1 m2 => exact jump (.inr rfl) h
  | halt =>
    obtain rfl := Host.Outcome.next.inj h
    exact .inr (.inr .halts)
  | input m1 =>
    simp only [exec, execInput] at h
    split at h
    · rename_i e he
      obtain rfl := Host.Outcome.next.inj h
      obtain ⟨_, rfl⟩ | ⟨d, _, _, rfl⟩ := inputDest_error.1 he <;> exact .inl ⟨_, recorded_outOfBounds .., rfl⟩
    · rename_i d hd
      obtain ⟨hp, hv⟩ := inputDest_ok.1 hd
      split at h
      · rename_i hr
        obtain rfl := Host.Outcome.next.inj h
        exact .inr (.inl ⟨by simp [held, inputHeld, hd, hr], rfl⟩)
      · obtain rfl := Host.Outcome.next.inj h
        exact .inl ⟨_, recorded_inputExhausted s, rfl⟩
      · rename_i v u hr
        have hm : u.mem = s.mem := by
          obtain ⟨_, rfl⟩ | ⟨vs, _, rfl⟩ | ⟨q, Q, vs, _, _, _, rfl⟩ := ioRead_value hr <;> rfl
        rw [storeWord_ok.2 ⟨hm ▸ hv, rfl⟩, complete_ok] at h
        obtain rfl := Host.Outcome.next.inj h
        exact .inr (.inr (.inputs hp hv hr))
  | output m1 =>
    simp only [exec, execOutput] at h
    split at h
    · rename_i e he
      obtain rfl := Host.Outcome.next.inj h
      exact .inl ⟨e, recorded_of_readParam he, rfl⟩
    · rename_i a ha
      split at h
      · rename_i hw
        obtain rfl := Host.Outcome.next.inj h
        exact .inr (.inl ⟨by simp [held, outputHeld, ha, hw], rfl⟩)
      · rename_i u hw
        obtain rfl := Host.Outcome.next.inj h
        exact .inr (.inr (.outputs (readParam_ok.1 ha) hw))

/-! ## Decode errors and the step -/

theorem decodeMode_error {w i : Nat} {e : DecodeError} (h : decodeMode w i = .error e) :
    e = .invalidAddressingMode w i := by
  unfold decodeMode at h
  split at h <;> simp_all

/-- The parameter index a decode error names is 1, 2 or 3 (R122). -/
theorem decode_error {w : Int} {e : DecodeError} (h : decode w = .error e) :
    e = .invalidOpcode w ∨ ∃ i, 1 ≤ i ∧ i ≤ 3 ∧ e = .invalidAddressingMode w i := by
  unfold decode at h
  split at h
  · exact .inl (Except.error.inj h).symm
  · rename_i hw
    split at h
    · exact .inl (Except.error.inj h).symm
    · rename_i o _
      have hn : ((w.toNat : Nat) : Int) = w := Int.toNat_of_nonneg (by omega)
      have fin : ∀ {i : Nat} {e' : DecodeError}, 1 ≤ i → i ≤ 3 → decodeMode w.toNat i = .error e' →
          e' = .invalidOpcode w ∨ ∃ i, 1 ≤ i ∧ i ≤ 3 ∧ e' = .invalidAddressingMode w i := by
        intro i e' h1 h3 hm
        obtain rfl := decodeMode_error hm
        exact .inr ⟨i, h1, h3, by rw [hn]⟩
      have one : ∀ {mk : Mode → Instr}, decodeModes1 mk w.toNat = .error e →
          e = .invalidOpcode w ∨ ∃ i, 1 ≤ i ∧ i ≤ 3 ∧ e = .invalidAddressingMode w i := by
        intro mk h
        cases h1 : decodeMode w.toNat 1 <;> simp [decodeModes1, bind, Except.bind, pure, Except.pure, h1] at h
        exact h ▸ fin (by omega) (by omega) h1
      have two : ∀ {mk : Mode → Mode → Instr}, decodeModes2 mk w.toNat = .error e →
          e = .invalidOpcode w ∨ ∃ i, 1 ≤ i ∧ i ≤ 3 ∧ e = .invalidAddressingMode w i := by
        intro mk h
        cases h1 : decodeMode w.toNat 1 <;> cases h2 : decodeMode w.toNat 2 <;>
          simp [decodeModes2, bind, Except.bind, pure, Except.pure, h1, h2] at h
        · exact h ▸ fin (by omega) (by omega) h1
        · exact h ▸ fin (by omega) (by omega) h1
        · exact h ▸ fin (by omega) (by omega) h2
      have three : ∀ {mk : Mode → Mode → Mode → Instr}, decodeModes3 mk w.toNat = .error e →
          e = .invalidOpcode w ∨ ∃ i, 1 ≤ i ∧ i ≤ 3 ∧ e = .invalidAddressingMode w i := by
        intro mk h
        cases h1 : decodeMode w.toNat 1 with
        | error e1 =>
          simp [decodeModes3, bind, Except.bind, h1] at h
          exact h ▸ fin (by omega) (by omega) h1
        | ok a =>
          cases h2 : decodeMode w.toNat 2 with
          | error e2 =>
            simp [decodeModes3, bind, Except.bind, h1, h2] at h
            exact h ▸ fin (by omega) (by omega) h2
          | ok b =>
            cases h3 : decodeMode w.toNat 3 with
            | error e3 =>
              simp [decodeModes3, bind, Except.bind, h1, h2, h3] at h
              exact h ▸ fin (by omega) (by omega) h3
            | ok c => simp [decodeModes3, bind, Except.bind, pure, Except.pure, h1, h2, h3] at h
      cases o <;> simp only [decodeOp] at h
      · exact three h
      · exact three h
      · exact one h
      · exact one h
      · exact two h
      · exact two h
      · exact three h
      · exact three h
      · simp at h

theorem recorded_of_fetchDecode {s : State} {e : Exn} (h : fetchDecode s = .error e) : Recorded s e := by
  obtain ⟨_, rfl⟩ | ⟨w, de, _, hd, rfl⟩ := fetchDecode_error.1 h
  · exact recorded_outOfBounds ..
  · obtain rfl | ⟨i, h1, h3, rfl⟩ := decode_error hd
    · rfl
    · simp [Recorded, exnOfDecodeError, faultRecordOk, h1, h3]

/-- What a step can do: it runs from Running only, and takes an exception, waits, or completes the decoded instruction. -/
theorem step_cases {s t : State} (h : step s = .next t) :
    s.runState = .running ∧
    ((∃ e, Recorded s e ∧ t = raise s e) ∨
     ∃ i, fetchDecode s = .ok i ∧ ((held i s = true ∧ t = s) ∨ Ran i s t)) := by
  unfold step at h
  split at h
  · simp at h
  · simp at h
  · rename_i hr
    refine ⟨hr, ?_⟩
    split at h
    · rename_i e he
      exact .inl ⟨e, recorded_of_fetchDecode he, (Host.Outcome.next.inj h).symm⟩
    · rename_i i hi
      obtain hx | hx := exec_cases h
      · exact .inl hx
      · exact .inr ⟨i, hi, hx⟩

/-- Every instruction answers a next state: the machine has no instruction it refuses or stops on. -/
theorem exec_next (i : Instr) (s : State) : ∃ t, exec i s = .next t := by
  have comp : ∀ r : Except Exn State, ∃ t, complete s r = .next t := fun r => by cases r <;> exact ⟨_, rfl⟩
  cases i with
  | input m1 =>
    simp only [exec, execInput]
    split
    · exact ⟨_, rfl⟩
    · split
      · exact ⟨_, rfl⟩
      · exact ⟨_, rfl⟩
      · exact comp _
  | output m1 =>
    simp only [exec, execOutput]
    split
    · exact ⟨_, rfl⟩
    · split <;> exact ⟨_, rfl⟩
  | halt => exact ⟨_, rfl⟩
  | add m1 m2 m3 => exact comp _
  | multiply m1 m2 m3 => exact comp _
  | jumpIfTrue m1 m2 => exact comp _
  | jumpIfFalse m1 m2 => exact comp _
  | lessThan m1 m2 m3 => exact comp _
  | equals m1 m2 m3 => exact comp _

/-- A held instruction answers the state it began in (R91). -/
theorem exec_of_held {i : Instr} {s : State} (h : held i s = true) : exec i s = .next s := by
  cases i <;> simp only [held, Bool.false_eq_true] at h
  · rename_i m1
    simp only [inputHeld] at h
    split at h
    · simp at h
    · rename_i d hd
      split at h
      · rename_i hr
        simp [exec, execInput, hd, hr]
      · simp at h
      · simp at h
  · rename_i m1
    simp only [outputHeld] at h
    split at h
    · simp at h
    · rename_i a ha
      simp only [Option.isNone_iff_eq_none] at h
      simp [exec, execOutput, ha, h]

end Sys2Proof.Machine
end

