-- ==== Sys2Proof/Laws/Locality.lean ====
section
/-! SUPPORT. When a step is enabled, and how it depends on the queues: the one lemma behind every statement about
several interpreters. A step reads at most the head of its source's queue and the room of its sink's queue, and changes
nothing else among the queues (R24, R40, R136). -/

namespace Sys2Proof.Machine

/-! ## Enabled and waiting -/

theorem waiting_iff {s : State} :
    s.waiting = true ↔ s.runState = .running ∧ ∃ i, fetchDecode s = .ok i ∧ held i s = true := by
  unfold State.waiting
  cases fetchDecode s <;> simp

theorem enabled_iff {s : State} :
    s.enabled = true ↔ s.runState = .running ∧ ∀ i, fetchDecode s = .ok i → held i s = false := by
  have hw := waiting_iff (s := s)
  cases hr : s.runState <;> cases hf : fetchDecode s <;> simp_all [State.enabled]

theorem stepAt_iff {y z : System} {i : Nat} :
    y.stepAt i = some z ↔ ∃ s t, y.view i = some s ∧ s.enabled = true ∧ step s = .next t ∧ z = y.put i t := by
  constructor
  · intro h
    unfold System.stepAt at h
    split at h
    · simp at h
    · rename_i s hs
      split at h
      · split at h
        · rename_i t ht
          exact ⟨s, t, hs, ‹_›, ht, (Option.some.inj h).symm⟩
        · simp at h
        · simp at h
      · simp at h
  · rintro ⟨s, t, hv, he, ht, rfl⟩
    simp [System.stepAt, hv, he, ht]

/-! ## The same step over other queues -/

/-- The same interpreter with other queues. -/
def State.withQueues (s : State) (qs : List Queue) : State := { s with queues := qs }

theorem withQueues_fetchDecode (s : State) (qs : List Queue) : fetchDecode (s.withQueues qs) = fetchDecode s := rfl

theorem withQueues_complete {s t : State} {r : Except Exn State} (qs : List Queue) (h : complete s r = .next t) :
    complete (s.withQueues qs) (r.map (·.withQueues qs)) = .next (t.withQueues qs) := by
  cases r <;> (simp at h; subst h; rfl)

theorem withQueues_storeWord (s : State) (qs : List Queue) (d v : Word) (n : Nat) :
    storeWord (s.withQueues qs) d v n = (storeWord s d v n).map (·.withQueues qs) := by
  unfold storeWord
  show (memWrite s.mem d v).bind _ = _
  cases memWrite s.mem d v <;> rfl

theorem withQueues_binary {compute : Word → Word → Except Exn Word} {m1 m2 : Mode} {s t : State} (qs : List Queue)
    (h : binaryToMemory compute m1 m2 s = .next t) :
    binaryToMemory compute m1 m2 (s.withQueues qs) = .next (t.withQueues qs) := by
  unfold binaryToMemory at *
  rw [← withQueues_complete qs h]
  congr 1
  show (do let a ← readParam s 1 m1; let b ← readParam s 2 m2; let d ← writeParam s 3; let v ← compute a b
           storeWord (s.withQueues qs) d v 4) = _
  cases readParam s 1 m1 <;> [rfl; skip]
  cases readParam s 2 m2 <;> [rfl; skip]
  cases writeParam s 3 <;> [rfl; skip]
  rename_i a b d
  simp only [bind, Except.bind]
  cases compute a b <;> [rfl; exact withQueues_storeWord ..]

theorem withQueues_jump {taken : Word → Bool} {m1 m2 : Mode} {s t : State} (qs : List Queue)
    (h : jumpWhen taken m1 m2 s = .next t) : jumpWhen taken m1 m2 (s.withQueues qs) = .next (t.withQueues qs) := by
  unfold jumpWhen at *
  rw [← withQueues_complete qs h]
  congr 1
  show (do let a ← readParam s 1 m1; let b ← readParam s 2 m2
           if taken a then (do checkAddr s.mem b .jump; return (s.withQueues qs).setPc b.toNat)
           else return (s.withQueues qs).setPc (s.pc + 3)) = _
  cases readParam s 1 m1 <;> [rfl; skip]
  cases readParam s 2 m2 <;> [rfl; skip]
  simp only [bind, Except.bind]
  split
  · cases checkAddr s.mem _ AccessTag.jump <;> rfl
  · rfl

/-- Over the queues `qs` the interpreter of `s` takes the same step, and leaves the queues `qs'`. -/
def StepsAlike (s t : State) (qs qs' : List Queue) : Prop :=
  (s.withQueues qs).enabled = true ∧ step (s.withQueues qs) = .next (t.withQueues qs')

/-- An enabled step touches no queue; or takes the head of its source's queue; or appends to its sink's queue. In each
case it happens alike over any queues that offer the same head or have room there. -/
theorem step_locality {s t : State} (he : s.enabled = true) (h : step s = .next t) :
    (t.queues = s.queues ∧ ∀ qs, StepsAlike s t qs qs) ∨
    (∃ q Q v vs, s.source = .queue q ∧ s.queues[q]? = some Q ∧ Q.items = v :: vs ∧
      t.queues = s.queues.set q { Q with items := vs } ∧
      ∀ qs Q' vs', qs[q]? = some Q' → Q'.items = v :: vs' →
        StepsAlike s t qs (qs.set q { Q' with items := vs' })) ∨
    (∃ q Q v, s.sink = .queue q ∧ s.queues[q]? = some Q ∧ Q.hasRoom = true ∧
      t.queues = s.queues.set q (Q.push v) ∧
      ∀ qs Q', qs[q]? = some Q' → Q'.hasRoom = true → StepsAlike s t qs (qs.set q (Q'.push v))) := by
  obtain ⟨hr, hh⟩ := enabled_iff.1 he
  cases hf : fetchDecode s with
  | error e =>
    refine .inl ?_
    simp only [step, hr, hf, Host.Outcome.next.injEq] at h
    subst h
    refine ⟨rfl, fun qs => ⟨enabled_iff.2 ⟨hr, fun i hi => ?_⟩, ?_⟩⟩
    · rw [withQueues_fetchDecode, hf] at hi; simp at hi
    · unfold step; rw [show (s.withQueues qs).runState = .running from hr, withQueues_fetchDecode, hf]; rfl
  | ok i =>
    have hx : exec i s = .next t := by simpa only [step, hr, hf] using h
    have hnh := hh i hf
    have alike : ∀ {qs qs'}, held i (s.withQueues qs) = false →
        exec i (s.withQueues qs) = .next (t.withQueues qs') → StepsAlike s t qs qs' := by
      intro qs qs' hq hs
      refine ⟨enabled_iff.2 ⟨hr, fun j hj => ?_⟩, ?_⟩
      · rw [withQueues_fetchDecode, hf] at hj
        obtain rfl := Except.ok.inj hj
        exact hq
      · unfold step; rw [show (s.withQueues qs).runState = .running from hr, withQueues_fetchDecode, hf]; exact hs
    have noPort : (∀ m, i ≠ .input m) → (∀ m, i ≠ .output m) → t.queues = s.queues := by
      intro h1 h2
      obtain ⟨e, _, rfl⟩ | ⟨_, rfl⟩ | hran := exec_cases hx
      · rfl
      · rfl
      · cases hran with
        | inputs => exact absurd rfl (h1 _)
        | outputs => exact absurd rfl (h2 _)
        | _ => rfl
    cases i with
    | add => exact .inl ⟨noPort (by simp) (by simp), fun qs => alike rfl (withQueues_binary qs hx)⟩
    | multiply => exact .inl ⟨noPort (by simp) (by simp), fun qs => alike rfl (withQueues_binary qs hx)⟩
    | lessThan => exact .inl ⟨noPort (by simp) (by simp), fun qs => alike rfl (withQueues_binary qs hx)⟩
    | equals => exact .inl ⟨noPort (by simp) (by simp), fun qs => alike rfl (withQueues_binary qs hx)⟩
    | jumpIfTrue => exact .inl ⟨noPort (by simp) (by simp), fun qs => alike rfl (withQueues_jump qs hx)⟩
    | jumpIfFalse => exact .inl ⟨noPort (by simp) (by simp), fun qs => alike rfl (withQueues_jump qs hx)⟩
    | halt =>
      refine .inl ⟨noPort (by simp) (by simp), fun qs => alike rfl ?_⟩
      simp only [exec, execHalt, Host.Outcome.next.injEq] at *
      subst hx; rfl
    | input m =>
      have same : ∀ qs, inputDest (s.withQueues qs) = inputDest s := fun _ => rfl
      simp only [exec, execInput] at hx
      cases hd : inputDest s with
      | error e =>
        simp only [hd, Host.Outcome.next.injEq] at hx
        subst hx
        refine .inl ⟨rfl, fun qs => alike (by simp [held, inputHeld, same, hd]) ?_⟩
        simp only [exec, execInput, same, hd]; rfl
      | ok d =>
        obtain ⟨_, hv⟩ := inputDest_ok.1 hd
        rw [hd] at hx
        have answered : ioRead s ≠ .noAnswer := by
          intro hn; simp [held, inputHeld, hd, hn] at hnh
        cases hsrc : s.source with
        | constant c =>
          have hio : ∀ qs, ioRead (s.withQueues qs) = .value c (s.withQueues qs) := fun qs => by
            simp [ioRead, State.withQueues, hsrc]
          rw [show ioRead s = .value c s by simp [ioRead, hsrc]] at hx
          simp only [storeWord_ok.2 ⟨hv, rfl⟩, complete_ok, Host.Outcome.next.injEq] at hx
          subst hx
          refine .inl ⟨rfl, fun qs => alike (by simp [held, inputHeld, same, hd, hio]) ?_⟩
          simp only [exec, execInput, same, hd, hio, withQueues_storeWord, storeWord_ok.2 ⟨hv, rfl⟩]; rfl
        | list L =>
          cases L with
          | nil =>
            have hio : ∀ qs, ioRead (s.withQueues qs) = .exhausted := fun qs => by
              simp [ioRead, State.withQueues, hsrc]
            rw [show ioRead s = .exhausted by simp [ioRead, hsrc]] at hx
            simp only [Host.Outcome.next.injEq] at hx
            subst hx
            refine .inl ⟨rfl, fun qs => alike (by simp [held, inputHeld, same, hd, hio]) ?_⟩
            simp only [exec, execInput, same, hd, hio]; rfl
          | cons v vs =>
            have hio : ∀ qs, ioRead (s.withQueues qs) = .value v ((s.setSource (.list vs)).withQueues qs) :=
              fun qs => by simp [ioRead, State.withQueues, hsrc]; rfl
            rw [show ioRead s = .value v (s.setSource (.list vs)) by simp [ioRead, hsrc]] at hx
            have hv' : validAddr (s.setSource (.list vs)).mem d = true := hv
            simp only [storeWord_ok.2 ⟨hv', rfl⟩, complete_ok, Host.Outcome.next.injEq] at hx
            subst hx
            refine .inl ⟨rfl, fun qs => alike (by simp [held, inputHeld, same, hd, hio]) ?_⟩
            simp only [exec, execInput, same, hd, hio, withQueues_storeWord, storeWord_ok.2 ⟨hv', rfl⟩]; rfl
        | queue q =>
          cases hQ : s.queues[q]? with
          | none => exact absurd (by simp [ioRead, hsrc, hQ]) answered
          | some Q =>
            cases hit : Q.items with
            | nil => exact absurd (by simp [ioRead, hsrc, hQ, hit]) answered
            | cons v vs =>
              rw [show ioRead s = .value v (s.setQueue q { Q with items := vs }) by
                simp [ioRead, hsrc, hQ, hit]] at hx
              have hv' : validAddr (s.setQueue q { Q with items := vs }).mem d = true := hv
              simp only [storeWord_ok.2 ⟨hv', rfl⟩, complete_ok, Host.Outcome.next.injEq] at hx
              subst hx
              refine .inr (.inl ⟨q, Q, v, vs, rfl, hQ, hit, rfl, fun qs Q' vs' hQ' hit' => ?_⟩)
              have hio : ioRead (s.withQueues qs) =
                  .value v ((s.withQueues qs).setQueue q { Q' with items := vs' }) := by
                show ioRead { s with queues := qs } = _
                simp [ioRead, hsrc, hQ', hit']; rfl
              refine alike (by simp [held, inputHeld, same, hd, hio]) ?_
              simp only [exec, execInput, same, hd, hio]
              have hv'' : validAddr ((s.withQueues qs).setQueue q { Q' with items := vs' }).mem d = true := hv
              rw [storeWord_ok.2 ⟨hv'', rfl⟩]; rfl
    | output m =>
      have same : ∀ qs, readParam (s.withQueues qs) 1 m = readParam s 1 m := fun _ => rfl
      simp only [exec, execOutput] at hx
      cases hd : readParam s 1 m with
      | error e =>
        simp only [hd, Host.Outcome.next.injEq] at hx
        subst hx
        refine .inl ⟨rfl, fun qs => alike (by simp [held, outputHeld, same, hd]) ?_⟩
        simp only [exec, execOutput, same, hd]; rfl
      | ok a =>
        simp only [hd] at hx
        have accepted : ioWrite s a ≠ none := by intro hn; simp [held, outputHeld, hd, hn] at hnh
        cases hsnk : s.sink with
        | log out =>
          have hio : ∀ qs, ioWrite (s.withQueues qs) a =
              some (((s.setSink (.log (out ++ [a]))).mirrored a).withQueues qs) := fun qs => by
            simp [ioWrite, State.withQueues, hsnk]; rfl
          rw [show ioWrite s a = some ((s.setSink (.log (out ++ [a]))).mirrored a) by simp [ioWrite, hsnk]] at hx
          simp only [Host.Outcome.next.injEq] at hx
          subst hx
          refine .inl ⟨rfl, fun qs => alike (by simp [held, outputHeld, same, hd, hio]) ?_⟩
          simp only [exec, execOutput, same, hd, hio]; rfl
        | queue q =>
          cases hQ : s.queues[q]? with
          | none => exact absurd (by simp [ioWrite, hsnk, hQ]) accepted
          | some Q =>
            cases hroom : Q.hasRoom with
            | false => exact absurd (by simp [ioWrite, hsnk, hQ, hroom]) accepted
            | true =>
              rw [show ioWrite s a = some ((s.setQueue q (Q.push a)).mirrored a) by
                simp [ioWrite, hsnk, hQ, hroom]] at hx
              simp only [Host.Outcome.next.injEq] at hx
              subst hx
              refine .inr (.inr ⟨q, Q, a, rfl, hQ, hroom, rfl, fun qs Q' hQ' hroom' => ?_⟩)
              have hio : ioWrite (s.withQueues qs) a =
                  some (((s.withQueues qs).setQueue q (Q'.push a)).mirrored a) := by
                show ioWrite { s with queues := qs } a = _
                simp [ioWrite, hsnk, hQ', hroom']; rfl
              refine alike (by simp [held, outputHeld, same, hd, hio]) ?_
              simp only [exec, execOutput, same, hd, hio]; rfl

end Sys2Proof.Machine
end

