-- ==== Sys2Proof/Laws/PerInstr.lean ====
section
/-! SUPPORT. Facts about every instruction as syntax, one lemma per constructor (families of LAWS.json). -/

namespace Sys2Proof.Laws

/-- "`mode_list` has exactly `operation.param_count()` entries" (R53, R58). -/
def ModeCount.Statement (i : Instr) : Prop := i.modes.length = i.op.paramCount

theorem ModeCount.add (m1 m2 m3 : Mode) : ModeCount.Statement (.add m1 m2 m3) := rfl
theorem ModeCount.multiply (m1 m2 m3 : Mode) : ModeCount.Statement (.multiply m1 m2 m3) := rfl
theorem ModeCount.input (m1 : Mode) : ModeCount.Statement (.input m1) := rfl
theorem ModeCount.output (m1 : Mode) : ModeCount.Statement (.output m1) := rfl
theorem ModeCount.jumpIfTrue (m1 m2 : Mode) : ModeCount.Statement (.jumpIfTrue m1 m2) := rfl
theorem ModeCount.jumpIfFalse (m1 m2 : Mode) : ModeCount.Statement (.jumpIfFalse m1 m2) := rfl
theorem ModeCount.lessThan (m1 m2 m3 : Mode) : ModeCount.Statement (.lessThan m1 m2 m3) := rfl
theorem ModeCount.equals (m1 m2 m3 : Mode) : ModeCount.Statement (.equals m1 m2 m3) := rfl
theorem ModeCount.halt : ModeCount.Statement .halt := rfl

/-- The instruction word has its operation code in the two low digits and no digit above the last mode digit (R51). -/
def EncodeDigits.Statement (i : Instr) : Prop :=
  encodeNat i % 100 = codeOf i.op ∧ encodeNat i < 10 ^ (i.op.paramCount + 2)

theorem EncodeDigits.add (m1 m2 m3 : Mode) : EncodeDigits.Statement (.add m1 m2 m3) := by
  cases m1 <;> cases m2 <;> cases m3 <;> exact ⟨rfl, by decide⟩
theorem EncodeDigits.multiply (m1 m2 m3 : Mode) : EncodeDigits.Statement (.multiply m1 m2 m3) := by
  cases m1 <;> cases m2 <;> cases m3 <;> exact ⟨rfl, by decide⟩
theorem EncodeDigits.input (m1 : Mode) : EncodeDigits.Statement (.input m1) := by
  cases m1 <;> exact ⟨rfl, by decide⟩
theorem EncodeDigits.output (m1 : Mode) : EncodeDigits.Statement (.output m1) := by
  cases m1 <;> exact ⟨rfl, by decide⟩
theorem EncodeDigits.jumpIfTrue (m1 m2 : Mode) : EncodeDigits.Statement (.jumpIfTrue m1 m2) := by
  cases m1 <;> cases m2 <;> exact ⟨rfl, by decide⟩
theorem EncodeDigits.jumpIfFalse (m1 m2 : Mode) : EncodeDigits.Statement (.jumpIfFalse m1 m2) := by
  cases m1 <;> cases m2 <;> exact ⟨rfl, by decide⟩
theorem EncodeDigits.lessThan (m1 m2 m3 : Mode) : EncodeDigits.Statement (.lessThan m1 m2 m3) := by
  cases m1 <;> cases m2 <;> cases m3 <;> exact ⟨rfl, by decide⟩
theorem EncodeDigits.equals (m1 m2 m3 : Mode) : EncodeDigits.Statement (.equals m1 m2 m3) := by
  cases m1 <;> cases m2 <;> cases m3 <;> exact ⟨rfl, by decide⟩
theorem EncodeDigits.halt : EncodeDigits.Statement .halt := ⟨rfl, by decide⟩

end Sys2Proof.Laws
end

