-- ==== Sys2Proof/Laws/Pipeline.lean ====
section
/-! SUPPORT. What each of the caller's moves does, said once; `stepAt_iff` in Locality.lean says it of a step. -/

namespace Sys2Proof.Machine

theorem enqueue_iff {y z : System} {q : Nat} {v : Word} :
    y.enqueue q v = some z ↔ ∃ Q, y.queues[q]? = some Q ∧ y.hasWriter q = false ∧ Q.hasRoom = true ∧
      (∀ c ∈ y.insts, fitsWord c.wordBits v = true) ∧ z = { y with queues := y.queues.set q (Q.push v) } := by
  unfold System.enqueue
  cases y.queues[q]? with
  | none => simp
  | some Q =>
    simp only [Bool.and_eq_true, Bool.not_eq_true', List.all_eq_true, Option.some.injEq, exists_eq_left']
    split
    · rename_i h
      exact ⟨fun e => ⟨h.1.1, h.1.2, h.2, (Option.some.inj e).symm⟩, fun e => congrArg some e.2.2.2.symm⟩
    · rename_i h
      exact ⟨fun e => (nomatch e), fun e => absurd ⟨⟨e.1, e.2.1⟩, e.2.2.1⟩ h⟩

theorem take_iff {y z : System} {q : Nat} :
    y.take q = some z ↔ ∃ Q v vs, y.queues[q]? = some Q ∧ Q.items = v :: vs ∧ y.hasReader q = false ∧
      z = { y with queues := y.queues.set q { Q with items := vs } } := by
  unfold System.take
  cases y.queues[q]? with
  | none => simp
  | some Q => cases hi : Q.items <;> cases hr : y.hasReader q <;> simp [hi, eq_comm]

theorem takeOverflow_iff {y z : System} {i : Nat} :
    y.takeOverflow i = some z ↔ ∃ c o, y.insts[i]? = some c ∧ c.mirror = some o ∧ o.taken < o.log.length ∧
      z = { y with insts := y.insts.set i { c with mirror := some { o with taken := o.taken + 1 } } } := by
  unfold System.takeOverflow
  cases y.insts[i]? with
  | none => simp
  | some c =>
    cases hm : c.mirror with
    | none => simp [hm]
    | some o =>
      by_cases ht : o.taken < o.log.length
      · simp [hm, ht, eq_comm]
      · simp [hm, ht]

end Sys2Proof.Machine
end

