-- ==== Sys2Proof/Tests/Slice0.lean ====
section
/-! SUPPORT. Tests. The expected results come from spec/95 (the vector's id is in each comment) or by hand from the rule
named; none is the model's own answer. Then, for each statement of Obligations.lean with hypotheses, a state and
operands that meet them, one witness for each clause. -/

namespace Sys2Proof.Tests

open Sys2Proof.Machine

/-- A just constructed machine with program `p`, list source `vs`, an empty log, and the unbounded Word. -/
def run (p vs : List Word) : State := State.construct p (.list vs) (.log []) none none []

/-- The same with a 64-bit Word. -/
def run64 (p : List Word) : State := State.construct p (.list []) (.log []) none (some 64) []

/-- The same wired to queues: source queue 0, sink queue 1, mirrored. -/
def wired (p : List Word) (q0 q1 : Queue) : State := State.construct p (.queue 0) (.queue 1) (some ⟨[], 0⟩) none [q0, q1]

/-- The next state of a step, if it answers one. -/
def after (s : State) : Option State :=
  match step s with
  | .next t => some t
  | .fault _ => none
  | .refused _ => none

/-- Memory and `pc` after a step that leaves the machine Running. -/
def memPc (s : State) : Option (List Word × Nat) :=
  (after s).bind fun t => if t.runState == .running then some (t.mem, t.pc) else none

/-- The exception a step takes, with `pc` after it. -/
def trap (s : State) : Option (ErrorKind × Option FaultInfo × Nat) :=
  (after s).bind fun t => t.faultCause.map fun k => (k, t.faultInfo, t.pc)

/-! ## Decoding: Words written out from `... m3 m2 m1 c c` (R51), vectors of spec/95 section 3.1 -/

theorem test_decode_add : decode 11101 = .ok (.add .immediate .immediate .immediate) := by decide
theorem test_decode_multiply : decode 1002 = .ok (.multiply .position .immediate .position) := by decide
theorem test_decode_input : decode 103 = .ok (.input .immediate) := by decide
theorem test_decode_output : decode 104 = .ok (.output .immediate) := by decide
theorem test_decode_jumpIfTrue : decode 1005 = .ok (.jumpIfTrue .position .immediate) := by decide
theorem test_decode_jumpIfFalse : decode 106 = .ok (.jumpIfFalse .immediate .position) := by decide
theorem test_decode_lessThan : decode 1007 = .ok (.lessThan .position .immediate .position) := by decide
theorem test_decode_equals : decode 10108 = .ok (.equals .immediate .position .immediate) := by decide
theorem test_decode_halt : decode 12399 = .ok .halt := by decide
theorem test_decode_high_digit_ignored : decode 100001 = .ok (.add .position .position .position) := by decide
theorem test_decode_short_modes : decode 1104 = .ok (.output .immediate) := by decide
theorem test_decode_zero : decode 0 = .error (.invalidOpcode 0) := by decide
theorem test_decode_nine : decode 9 = .error (.invalidOpcode 9) := by decide
theorem test_decode_negative : decode (-101) = .error (.invalidOpcode (-101)) := by decide
theorem test_decode_bad_mode : decode 2101 = .error (.invalidAddressingMode 2101 2) := by decide
theorem test_decode_bad_dest_mode : decode 203 = .error (.invalidAddressingMode 203 1) := by decide
theorem test_decode_lowest_bad_mode : decode 2205 = .error (.invalidAddressingMode 2205 1) := by decide
theorem test_encode_multiply : encode (.multiply .position .immediate .position) = 1002 := by decide
theorem test_encode_halt : encode .halt = 99 := by decide
theorem test_words_multiply : instrWords (.multiply .position .immediate .position) [3, 11, 0] = [1002, 3, 11, 0] := by decide
theorem test_table_word : decodeTableWord 8 4 = some (.output .position) := by decide

/-! ## Well-formedness: an ill-formed term for each check, refused (R59, R62) -/

theorem test_wf_add : Instr.listingForm (.add .position .position .immediate) = false := by decide
theorem test_wf_multiply : Instr.listingForm (.multiply .position .position .immediate) = false := by decide
theorem test_wf_input : Instr.listingForm (.input .immediate) = false := by decide
theorem test_wf_lessThan : Instr.listingForm (.lessThan .position .position .immediate) = false := by decide
theorem test_wf_equals : Instr.listingForm (.equals .position .position .immediate) = false := by decide
theorem test_wf_accepts : Instr.listingForm (.add .immediate .immediate .position) = true := by decide
theorem test_strict_high_digit : strictWord 199 = false := by decide
theorem test_strict_undecodable : strictWord 0 = false := by decide
theorem test_strict_accepts : strictWord 1101 = true := by decide

/-! ## One step of each instruction -/

/-- A1. -/
theorem test_add_alias : memPc (run [1, 0, 0, 0, 99] []) = some ([2, 0, 0, 0, 99], 4) := by decide
/-- A8. -/
theorem test_add_negative : memPc (run [1101, 100, -1, 4, 0] []) = some ([1101, 100, -1, 4, 99], 4) := by decide
/-- A9. -/
theorem test_multiply_sign : memPc (run [1102, -3, 7, 0, 99] []) = some ([-21, -3, 7, 0, 99], 4) := by decide
/-- A3. -/
theorem test_multiply_own_parameter : memPc (run [2, 3, 0, 3, 99] []) = some ([2, 3, 0, 6, 99], 4) := by decide
/-- IO2: no double dereference. -/
theorem test_input_direct : memPc (run [3, 3, 99, 1] [5]) = some ([3, 3, 99, 5], 2) := by decide
/-- PT2: the list keeps its tail. -/
theorem test_input_consumes : (after (run [3, 0, 99] [8, 9])).map (·.source) = some (.list [9]) := by decide
/-- IO9. -/
theorem test_output_immediate : (after (run [104, -7, 99] [])).map (·.sink) = some (.log [-7]) := by decide
/-- R96: a queue receives at its tail, and the mirror receives the same. -/
theorem test_output_queue : (after (wired [4, 0, 99] ⟨[], none⟩ ⟨[1], some 2⟩)).map (fun t => (t.queues, t.mirror)) =
    some ([⟨[], none⟩, ⟨[1, 4], some 2⟩], some ⟨[4], 0⟩) := by decide
/-- J5. -/
theorem test_jumpIfTrue_negative : memPc (run [1105, -4, 3, 99] []) = some ([1105, -4, 3, 99], 3) := by decide
/-- J2: not taken, an invalid target value is no address. -/
theorem test_jumpIfTrue_falls : memPc (run [1105, 0, 7, 99] []) = some ([1105, 0, 7, 99], 3) := by decide
/-- J12: an indirect target. -/
theorem test_jumpIfFalse_indirect : memPc (run [6, 4, 5, 99, 0, 3] []) = some ([6, 4, 5, 99, 0, 3], 3) := by decide
/-- J4, with a target that differs from the fall-through address: not taken. -/
theorem test_jumpIfFalse_falls : memPc (run [1106, 5, 0, 99] []) = some ([1106, 5, 0, 99], 3) := by decide
/-- C3: the signed order. -/
theorem test_lessThan_signed : memPc (run [1107, 3, -5, 1, 99] []) = some ([1107, 0, -5, 1, 99], 4) := by decide
/-- C2. -/
theorem test_lessThan_true : memPc (run [1107, -5, 3, 1, 99] []) = some ([1107, 1, 3, 1, 99], 4) := by decide
/-- C5. -/
theorem test_equals_sign : memPc (run [1108, 5, -5, 1, 99] []) = some ([1108, 0, -5, 1, 99], 4) := by decide
/-- C7. -/
theorem test_equals_alias : memPc (run [8, 0, 0, 0, 99] []) = some ([1, 0, 0, 0, 99], 4) := by decide
/-- H1: Halt in the last cell. -/
theorem test_halt : (after (run [99] [])).map (fun t => (t.runState, t.pc)) = some (.halted, 1) := by decide

/-! ## Exceptions and waits -/

/-- F1: the empty program, which is also the reset state. -/
theorem test_reset_first_step : trap State.reset = some (.memoryOutOfBounds, some (.address 0 .fetch), 0) := by decide
/-- F3. -/
theorem test_trap_missing_parameter : trap (run [1, 0, 0] []) = some (.memoryOutOfBounds, some (.address 3 .fetch), 0) := by decide
/-- F12: the load of p1 comes before the fetch of p3. -/
theorem test_trap_order : trap (run [1, 9, 9] []) = some (.memoryOutOfBounds, some (.address 9 .read), 0) := by decide
/-- F11: a decode error comes before any parameter. -/
theorem test_trap_mode_first : trap (run [901, 9, 9] []) = some (.invalidAddressingMode, some (.instrParam 901 1), 0) := by decide
/-- IO5: the destination is checked before the port. -/
theorem test_trap_input_dest : (after (run [3, 7, 99] [42])).map (fun t => (t.faultInfo, t.source)) =
    some (some (.address 7 .write), .list [42]) := by decide
/-- IO4. -/
theorem test_trap_exhausted : trap (run [3, 0, 99] []) = some (.inputExhausted, none, 0) := by decide
/-- J7: a target equal to `MEM_LEN`. -/
theorem test_trap_jump : trap (run [1105, 1, 4, 99] []) = some (.memoryOutOfBounds, some (.address 4 .jump), 0) := by decide
/-- J11: p2 is resolved though the jump is not taken. -/
theorem test_trap_jump_not_taken : trap (run [105, 0, 9, 99] []) = some (.memoryOutOfBounds, some (.address 9 .read), 0) := by decide
/-- A15 with `WORD_BITS = 64`. -/
theorem test_trap_overflow : trap (run64 [1101, 9223372036854775807, 1, 0, 99]) = some (.arithmeticOverflow, none, 0) := by decide
/-- A17 with `WORD_BITS = 64`: it fits. -/
theorem test_no_overflow : (after (run64 [1102, 3037000499, 3037000499, 0, 99])).map (·.mem.head?) =
    some (some 9223372030926249001) := by decide
/-- IO7: an empty queue holds the machine, Running. -/
theorem test_input_waits : after (wired [3, 0, 99] ⟨[], none⟩ ⟨[], none⟩) = some (wired [3, 0, 99] ⟨[], none⟩ ⟨[], none⟩) ∧
    (wired [3, 0, 99] ⟨[], none⟩ ⟨[], none⟩).enabled = false := by decide
/-- PT6: a full queue holds the machine. -/
theorem test_output_waits : (wired [104, 7, 99] ⟨[], none⟩ ⟨[1], some 1⟩).waiting = true := by decide

/-- A pipeline of one interpreter that has halted after writing 5 and then 7, of which the caller has taken `n`. -/
def haltedWriter (n : Nat) : System :=
  ⟨[{ Interp.construct [99] (.list []) (.log [5, 7]) (some ⟨[5, 7], n⟩) none with runState := .halted, pc := 1 }], []⟩

/-! ## The ring (P7: the seeded queues; R141: a result only when all are Halted) -/

theorem test_ring_seed : (System.ring [99] [1, 2, 3] none none).queues = [⟨[1, 0], none⟩, ⟨[2], none⟩, ⟨[3], none⟩] := by decide
/-- R141, R7: the result is the last value written, before and after the caller has taken every value. -/
theorem test_result_survives_takes :
    (haltedWriter 0).result = some 7 ∧
    ((haltedWriter 0).run [.takeOverflow 0, .takeOverflow 0]).map (fun z => (z, z.result)) = some (haltedWriter 2, some 7) ∧
    (haltedWriter 2).takeOverflow 0 = none := by decide
theorem test_ring_no_result_yet : (System.ring [99] [1, 2] none none).result = none := by decide

/-! ## Witnesses: a state and operands that meet the hypotheses of each statement, one for each clause -/

theorem wit_EveryWordIsLegalOrOneDecodeError :
    ((-1 : Int) < 0) ∧ ((100 : Int).toNat % 100 ∉ [1, 2, 3, 4, 5, 6, 7, 8, 99]) ∧
    ((98 : Int).toNat % 100 ∉ [1, 2, 3, 4, 5, 6, 7, 8, 99]) ∧
    (opOfCode ((1101 : Int).toNat % 100) = some .add ∧ digit 2 1101 ≤ 1 ∧ digit 3 1101 ≤ 1 ∧ digit 4 1101 ≤ 1) ∧
    (opOfCode ((20001 : Int).toNat % 100) = some .add ∧ 2 ≤ digit 4 20001 ∧ digit 3 20001 ≤ 1 ∧ digit 2 20001 ≤ 1) ∧
    (opOfCode ((999 : Int).toNat % 100) = some .halt ∧ Op.halt.paramCount = 0) := by decide
theorem wit_UnknownOperationCodeRaises :
    ((run [100] []).runState = .running ∧ (run [100] []).param 0 = some 100 ∧ (100 : Int) % 100 = 0) ∧
    ((run [9] []).param 0 = some 9 ∧ (9 : Int) ≤ 9 % 100 ∧ (9 : Int) % 100 ≤ 98) ∧
    ((run [1098] []).param 0 = some 1098 ∧ (9 : Int) ≤ 1098 % 100 ∧ (1098 : Int) % 100 ≤ 98) := by decide
theorem wit_NegativeInstructionWordRaises :
    (run [-99] []).runState = .running ∧ (run [-99] []).param 0 = some (-99) ∧ (-99 : Int) < 0 := by decide
theorem wit_BadModeDigitRaises :
    (run [2101, 0, 0, 0] []).runState = .running ∧ (run [2101, 0, 0, 0] []).param 0 = some 2101 ∧
    opOfCode ((2101 : Int).toNat % 100) = some .add ∧ 2 ≤ Op.add.paramCount ∧ 2 ≤ digit 3 2101 ∧ digit 2 2101 ≤ 1 := by decide
theorem wit_StepRunsTheDecodedInstruction :
    (run [1, 0, 0, 0, 99] []).runState = .running ∧ (run [1, 0, 0, 0, 99] []).param 0 = some 1 ∧
    decode 1 = .ok (.add .position .position .position) := by decide
theorem wit_FetchPastTheEndRaises :
    State.reset.runState = .running ∧ State.reset.mem.length ≤ State.reset.pc := by decide
theorem wit_EndedMachineTakesNoStep :
    (raise (run [0] []) inputExhausted).runState ≠ .running ∧
    (System.mk [(raise (run [0] []) inputExhausted).toInterp] []).view 0 = some (raise (run [0] []) inputExhausted) := by decide
theorem wit_RunningMachineAlwaysAnswers : (run [99] []).runState = .running := by decide
theorem wit_WaitingChangesNothing : (wired [3, 0, 99] ⟨[], none⟩ ⟨[], none⟩).waiting = true := by decide
theorem wit_FaultsArePrecise : (after (run [0] [])).map (·.runState) = some .faulted := by decide
/-- One Running, not waiting, not faulting step for each arm of the statement. -/
theorem wit_ProgramCounterAfterAStep :
    ∀ p ∈ ([[1105, 1, 3, 99], [1106, 1, 3, 99], [1, 0, 0, 0], [2, 0, 0, 0], [7, 0, 0, 0], [8, 0, 0, 0], [3, 0], [4, 0],
      [99]] : List (List Word)),
      (fetchDecode (run p [5])).isOk = true ∧ (run p [5]).waiting = false ∧
        (after (run p [5])).any (fun t => t.runState != .faulted) = true := by decide
theorem wit_StepKeepsTheConfiguration : (after (run [3, 0, 99] [5])).isSome = true := by decide
theorem wit_StepWritesOnlyTheDestination :
    (after (run [1101, 2, 3, 0, 99] [])).isSome = true ∧
    fetchDecode (run [1101, 2, 3, 0, 99] []) = .ok (.add .immediate .immediate .position) ∧
    (run [1101, 2, 3, 0, 99] []).destAddr (.add .immediate .immediate .position) ≠ some 1 := by decide
theorem wit_StepKeepsTheInvariant : (run [1, 0, 0, 0, 99] [5]).Inv ∧ (after (run [1, 0, 0, 0, 99] [5])).isSome = true :=
  ⟨⟨by decide, rfl, rfl, rfl, rfl, rfl, by simp [run], rfl, rfl, rfl, rfl⟩, by decide⟩
theorem wit_ConstructionMeetsTheInvariant :
    widthOk (some 64) = true ∧ ([1, 0, 0, 0, 99] : List Word).all (fitsWord (some 64)) = true ∧
    (Source.queue 0).wf (some 64) = true ∧ (Sink.queue 1).wf (some 64) = true ∧
    (some (Overflow.mk [] 0)).all (Overflow.wf (some 64)) = true ∧
    (∀ Q ∈ ([⟨[5], none⟩, ⟨[], some 1⟩] : List Queue), Q.wf (some 64) = true) ∧
    (Source.queue 0).wired 2 = true ∧ (Sink.queue 1).wired 2 = true := by decide
theorem wit_AddCompletes :
    (run64 [1101, 2, 3, 4, 0]).operand 1 .immediate = some 2 ∧ (run64 [1101, 2, 3, 4, 0]).operand 2 .immediate = some 3 ∧
    (run64 [1101, 2, 3, 4, 0]).param 3 = some 4 ∧ (4 : Int) < (run64 [1101, 2, 3, 4, 0]).mem.length ∧
    fitsWord (some 64) (2 + 3) = true := by decide
theorem wit_MultiplyCompletes :
    (run [2, 4, 0, 0, 99] []).operand 1 .position = some 99 ∧ (run [2, 4, 0, 0, 99] []).operand 2 .position = some 2 ∧
    (run [2, 4, 0, 0, 99] []).param 3 = some 0 ∧ (0 : Int) < (run [2, 4, 0, 0, 99] []).mem.length ∧
    fitsWord none (99 * 2) = true := by decide
theorem wit_LessThanCompletes :
    (run [1107, -5, 3, 1] []).operand 1 .immediate = some (-5) ∧ (run [1107, -5, 3, 1] []).operand 2 .immediate = some 3 ∧
    (run [1107, -5, 3, 1] []).param 3 = some 1 ∧ (1 : Int) < (run [1107, -5, 3, 1] []).mem.length ∧ (-5 : Int) < 3 ∧
    (run [1107, 3, 3, 1] []).operand 1 .immediate = some 3 ∧ (run [1107, 3, 3, 1] []).operand 2 .immediate = some 3 ∧
    (3 : Int) ≤ 3 := by decide
theorem wit_EqualsCompletes :
    (run [1108, 3, 3, 1] []).operand 1 .immediate = some 3 ∧ (run [1108, 3, 3, 1] []).operand 2 .immediate = some 3 ∧
    (run [1108, 3, 3, 1] []).param 3 = some 1 ∧ (1 : Int) < (run [1108, 3, 3, 1] []).mem.length ∧
    (run [1108, 5, -5, 1] []).operand 1 .immediate = some 5 ∧ (run [1108, 5, -5, 1] []).operand 2 .immediate = some (-5) ∧
    (5 : Int) ≠ -5 := by decide
theorem wit_ComparisonGivesOneOrZero :
    ((after (run [1107, -5, 3, 1] [])).any (fun t => t.runState != .faulted) = true) ∧
    ((after (run [1108, 5, 3, 1] [])).any (fun t => t.runState != .faulted) = true) := by decide
theorem wit_InputCompletes :
    ((run [3, 1] []).param 1 = some 1 ∧ (1 : Int) < (run [3, 1] []).mem.length) ∧
    ((State.construct [3, 1] (.constant 7) (.log []) none none []).source = .constant 7) ∧
    ((run [3, 1] [8, 9]).source = .list (8 :: [9])) ∧
    ((wired [3, 1] ⟨[8], none⟩ ⟨[], none⟩).source = .queue 0 ∧
      (wired [3, 1] ⟨[8], none⟩ ⟨[], none⟩).queues[0]? = some ⟨[8], none⟩) := by decide
theorem wit_OutputCompletes :
    ((run [4, 0] []).operand 1 .position = some 4 ∧ (run [4, 0] []).sink = .log []) ∧
    ((wired [4, 0] ⟨[], none⟩ ⟨[], none⟩).operand 1 .position = some 4 ∧
      (wired [4, 0] ⟨[], none⟩ ⟨[], none⟩).sink = .queue 1 ∧
      (wired [4, 0] ⟨[], none⟩ ⟨[], none⟩).queues[1]? = some ⟨[], none⟩) ∧
    ((wired [4, 0] ⟨[], none⟩ ⟨[3], some 2⟩).queues[1]? = some ⟨[3], some 2⟩ ∧ ([3] : List Word).length < 2) := by decide
theorem wit_JumpIfTrueCompletes :
    ((run [1105, 1, 3, 99] []).operand 1 .immediate = some 1 ∧ (run [1105, 1, 3, 99] []).operand 2 .immediate = some 3 ∧
      (3 : Int) < (run [1105, 1, 3, 99] []).mem.length) ∧
    ((run [1105, 0, 7, 99] []).operand 1 .immediate = some 0 ∧ (run [1105, 0, 7, 99] []).operand 2 .immediate = some 7) := by decide
theorem wit_JumpIfFalseCompletes :
    ((run [1106, 0, 0, 99] []).operand 1 .immediate = some 0 ∧ (run [1106, 0, 0, 99] []).operand 2 .immediate = some 0 ∧
      (0 : Int) < (run [1106, 0, 0, 99] []).mem.length) ∧
    ((run [1106, -1, 7, 99] []).operand 1 .immediate = some (-1) ∧ (run [1106, -1, 7, 99] []).operand 2 .immediate = some 7) := by decide
/-- Each of the four operations answers a next state, completed and faulted, and leaves an address unnamed. -/
theorem wit_FrameOfMemoryOperations :
    ∀ c ∈ ([1, 2, 7, 8] : List Word), (after (run [c, 0, 0, 0] [])).any (fun t => t.runState == .running) = true ∧
      (after (run [c, 0, 0, 9] [])).any (fun t => t.runState == .faulted) = true ∧ (run [c, 0, 0, 0] []).param 3 ≠ some 1 := by decide
theorem wit_FrameOfControlOperations :
    ∀ p ∈ ([[1105, 1, 3, 99], [1106, 1, 3, 99], [99], [1105, 1, 9]] : List (List Word)), (after (run p [])).isSome = true := by decide
theorem wit_FrameOfInput :
    (after (run [3, 0] [5])).any (fun t => t.runState == .running) = true ∧
    (after (run [3, 0] [])).any (fun t => t.runState == .faulted) = true ∧ (run [3, 0] [5]).param 1 ≠ some 1 := by decide
theorem wit_FrameOfOutput :
    (after (run [4, 0] [])).any (fun t => t.runState == .running) = true ∧
    (after (run [4, 9] [])).any (fun t => t.runState == .faulted) = true := by decide
theorem wit_MemoryOperationTraps :
    ((run [1] []).param 1 = none) ∧
    ((run [1, -1, 0, 0] []).param 1 = some (-1) ∧ cell (run [1, -1, 0, 0] []).mem (-1) = none) ∧
    ((run [1, 0] []).operand 1 .position = some 1 ∧ (run [1, 0] []).param 2 = none) ∧
    ((run [1, 0, 4, 0] []).operand 1 .position = some 1 ∧ (run [1, 0, 4, 0] []).param 2 = some 4 ∧
      cell (run [1, 0, 4, 0] []).mem 4 = none) ∧
    ((run [1, 0, 0] []).operand 1 .position = some 1 ∧ (run [1, 0, 0] []).operand 2 .position = some 1 ∧
      (run [1, 0, 0] []).param 3 = none) ∧
    ((run [1, 0, 0, 4] []).operand 1 .position = some 1 ∧ (run [1, 0, 0, 4] []).operand 2 .position = some 1 ∧
      (run [1, 0, 0, 4] []).param 3 = some 4 ∧ cell (run [1, 0, 0, 4] []).mem 4 = none ∧ fitsWord none (1 + 1) = true) := by decide
theorem wit_OverflowRaises :
    (run64 [1101, 9223372036854775807, 1, 0]).wordBits = some 64 ∧
    (run64 [1101, 9223372036854775807, 1, 0]).operand 1 .immediate = some 9223372036854775807 ∧
    (run64 [1101, 9223372036854775807, 1, 0]).operand 2 .immediate = some 1 ∧
    (run64 [1101, 9223372036854775807, 1, 0]).param 3 = some 0 ∧
    (2 : Int) ^ (64 - 1) ≤ 9223372036854775807 + 1 ∧
    (run64 [1102, -9223372036854775808, 2, 0]).operand 1 .immediate = some (-9223372036854775808) ∧
    (run64 [1102, -9223372036854775808, 2, 0]).operand 2 .immediate = some 2 ∧
    (-9223372036854775808 : Int) * 2 < -(2 ^ (64 - 1)) := by decide
/-- The hypothesis on the fault record is met by a state that carries the record while Running, which no run reaches. -/
theorem wit_UnboundedWordNeverOverflows :
    let s : State := { run [104, 1] [] with faultCause := some .arithmeticOverflow }
    s.wordBits = none ∧ (after s).map (·.faultCause) = some (some .arithmeticOverflow) := by decide
theorem wit_JumpTraps :
    ((run [5] []).param 1 = none) ∧
    ((run [5, 9, 0] []).param 1 = some 9 ∧ cell (run [5, 9, 0] []).mem 9 = none) ∧
    ((run [5, 0] []).operand 1 .position = some 5 ∧ (run [5, 0] []).param 2 = none) ∧
    ((run [5, 0, 3] []).operand 1 .position = some 5 ∧ (run [5, 0, 3] []).param 2 = some 3 ∧
      cell (run [5, 0, 3] []).mem 3 = none) ∧
    ((run [1105, 1, 3] []).operand 1 .immediate = some 1 ∧ (run [1105, 1, 3] []).operand 2 .immediate = some 3 ∧
      cell (run [1105, 1, 3] []).mem 3 = none ∧ (1 : Int) ≠ 0) ∧
    ((run [1106, 0, -1] []).operand 1 .immediate = some 0 ∧ (run [1106, 0, -1] []).operand 2 .immediate = some (-1) ∧
      cell (run [1106, 0, -1] []).mem (-1) = none) := by decide
theorem wit_InputTraps :
    ((run [3] []).param 1 = none) ∧
    ((run [3, 2] []).param 1 = some 2 ∧ cell (run [3, 2] []).mem 2 = none) ∧
    ((run [3, 1] []).param 1 = some 1 ∧ (cell (run [3, 1] []).mem 1).isSome ∧ (run [3, 1] []).source = .list []) := by decide
theorem wit_OutputTraps :
    ((run [4] []).param 1 = none) ∧ ((run [4, 2] []).param 1 = some 2 ∧ cell (run [4, 2] []).mem 2 = none) := by decide
theorem wit_PortWaits :
    ((wired [3, 1] ⟨[], none⟩ ⟨[], none⟩).source = .queue 0 ∧ (wired [3, 1] ⟨[], none⟩ ⟨[], none⟩).queues[0]? = some ⟨[], none⟩ ∧
      (wired [3, 1] ⟨[], none⟩ ⟨[], none⟩).param 1 = some 1 ∧ (cell (wired [3, 1] ⟨[], none⟩ ⟨[], none⟩).mem 1).isSome) ∧
    ((wired [4, 0] ⟨[], none⟩ ⟨[7], some 1⟩).sink = .queue 1 ∧
      (wired [4, 0] ⟨[], none⟩ ⟨[7], some 1⟩).queues[1]? = some ⟨[7], some 1⟩ ∧ 1 ≤ ([7] : List Word).length ∧
      (wired [4, 0] ⟨[], none⟩ ⟨[7], some 1⟩).operand 1 .position = some 4) := by decide
theorem wit_MemReadIsChecked :
    (([5, 6] : Memory)[1]? = some 6) ∧ ((-1 : Int) < 0) ∧ ((([5, 6] : Memory).length : Int) ≤ 2) ∧
    (run [4, 0] []).param 1 = some 0 := by decide
theorem wit_MemWriteIsChecked :
    ((1 : Int) < ([5, 6] : Memory).length) ∧ ((-1 : Int) < 0) ∧ ((([5, 6] : Memory).length : Int) ≤ 2) := by decide
theorem wit_ConstantSourceAnswers : (State.construct [] (.constant 4) (.log []) none none []).source = .constant 4 := by decide
theorem wit_ListSourceAnswers : (run [] [8, 9]).source = .list (8 :: [9]) ∧ (run [] []).source = .list [] ∧
    ((run [3, 0] []).param 1 = some 0 ∧ (cell (run [3, 0] []).mem 0).isSome) := by decide
theorem wit_QueueSourceAnswers :
    ((wired [] ⟨[8], none⟩ ⟨[], none⟩).source = .queue 0 ∧ (wired [] ⟨[8], none⟩ ⟨[], none⟩).queues[0]? = some ⟨[8], none⟩) ∧
    ((wired [] ⟨[], none⟩ ⟨[], none⟩).queues[0]? = some ⟨[], none⟩) := by decide
theorem wit_LogNeverInfluencesTheRun :
    (run [104, 5] []).sink = .log [] ∧ (after (run [104, 5] [])).isSome = true := by decide
theorem wit_OnlyInputReadsTheSource : (after (run [104, 5] [])).isSome = true := by decide
theorem wit_RingIsWiredAndSeeded : ([4, 3] : List Word)[0]? = some 4 ∧ ([4, 3] : List Word)[1]? = some 3 := by decide
theorem wit_RingMeetsTheInvariant :
    widthOk (some 8) = true ∧ ([3, 0, 99] : List Word).all (fitsWord (some 8)) = true ∧
    ([4, 3] : List Word).all (fitsWord (some 8)) = true ∧ (2 : Nat) ≤ 2 := by decide
/-- A single interpreter reading queue 0, with the caller as the writer, and writing queue 1, with the caller as the
reader: it meets the system's invariant, and each kind of move is enabled. -/
theorem wit_MovesKeepTheSystemInvariant :
    let y : System := ⟨[Interp.construct [3, 0] (.queue 0) (.queue 1) (some ⟨[6], 0⟩) none], [⟨[5], none⟩, ⟨[7], some 1⟩]⟩
    y.Inv ∧ (y.move (.step 0)).isSome = true ∧ (y.move (.enqueue 0 9)).isSome = true ∧ (y.move (.take 1)).isSome = true ∧
      (y.move (.takeOverflow 0)).isSome = true := by
  refine ⟨⟨?_, ?_, ?_, ?_⟩, by decide, by decide, by decide, by decide⟩
  · rintro (_ | i) (_ | j) q hi hj
    · rfl
    · simp [System.sourceAt] at hj
    · simp [System.sourceAt] at hi
    · simp [System.sourceAt] at hi
  · rintro (_ | i) (_ | j) q hi hj
    · rfl
    · simp [System.sinkAt] at hj
    · simp [System.sinkAt] at hi
    · simp [System.sinkAt] at hi
  · intro c hc d hd
    simp_all
  · rintro (_ | i) s hs
    · obtain rfl := Option.some.inj hs
      exact ⟨by decide, rfl, rfl, rfl, rfl, rfl, by decide, rfl, rfl, rfl, rfl⟩
    · simp [System.view] at hs
theorem wit_StepTouchesOnlyItself :
    (((System.ring [3, 0, 99] [4, 3] none none).insts[0]?).isSome ∧
      ((System.ring [3, 0, 99] [4, 3] none none).stepAt 0).any (fun z => z.insts[0]?.isSome) = true) ∧
    ((System.ring [0] [4, 3] none none).stepAt 0).any (fun z => z.insts[0]?.any (fun c => c.runState == .faulted)) = true := by decide
/-- A ring of two meets the system's invariant. -/
theorem ring_of_two_inv : (System.ring [3, 0, 99] [4, 3] none none).Inv := by
  refine ⟨?_, ?_, ?_, ?_⟩
  · rintro (_ | _ | i) (_ | _ | j) q hi hj <;> first
      | rfl
      | (have h := hi.trans hj.symm; revert h; decide)
      | (cases hj; done)
      | cases hi
  · rintro (_ | _ | i) (_ | _ | j) q hi hj <;> first
      | rfl
      | (have h := hi.trans hj.symm; revert h; decide)
      | (cases hj; done)
      | cases hi
  · decide
  · rintro (_ | _ | i) s hs
    · obtain rfl := Option.some.inj hs
      exact ⟨by decide, rfl, rfl, rfl, rfl, rfl, by decide, rfl, rfl, rfl, rfl⟩
    · obtain rfl := Option.some.inj hs
      exact ⟨by decide, rfl, rfl, rfl, rfl, rfl, by decide, rfl, rfl, rfl, rfl⟩
    · cases hs
/-- Both of its interpreters have an enabled step. -/
theorem wit_StepsOfDifferentInterpretersCommute :
    (System.ring [3, 0, 99] [4, 3] none none).Inv ∧ (0 : Nat) ≠ 1 ∧
    ((System.ring [3, 0, 99] [4, 3] none none).stepAt 0).isSome = true ∧
    ((System.ring [3, 0, 99] [4, 3] none none).stepAt 1).isSome = true := ⟨ring_of_two_inv, by decide⟩
/-- Two of its schedules that end. -/
theorem wit_EverySchedulesEndIsTheSame :
    (System.ring [3, 0, 99] [4, 3] none none).Inv ∧
    ((System.ring [3, 0, 99] [4, 3] none none).run ([0, 0, 1, 1].map .step)).any System.quiet = true ∧
    ((System.ring [3, 0, 99] [4, 3] none none).run ([1, 0, 1, 0].map .step)).any System.quiet = true :=
  ⟨ring_of_two_inv, by decide, by decide⟩
theorem wit_CallerMovesReachNoInterpreter :
    let y : System := ⟨[Interp.construct [3, 0] (.queue 0) (.queue 1) (some ⟨[6], 0⟩) none], [⟨[5], none⟩, ⟨[7], some 1⟩]⟩
    (y.move (.enqueue 0 9)).isSome = true ∧ (y.move (.take 1)).isSome = true ∧ (y.move (.takeOverflow 0)).isSome = true ∧
    ((System.ring [3, 0, 99] [4, 3] none none).hasWriter 0 = true ∧ (System.ring [3, 0, 99] [4, 3] none none).hasReader 0 = true) := by decide
theorem wit_ResultSurvivesEveryMove :
    (haltedWriter 1).result = some 7 ∧ ((haltedWriter 1).move (.takeOverflow 0)).isSome = true := by decide
theorem wit_PlacedWordRunsNext :
    decodeTableWord 8 99 = some .halt ∧ (after (State.reset.withFetchWord 8 99)).map (·.runState) = some .halted := by decide

end Sys2Proof.Tests
end

section
/-! PROOFS. Scope: what every step keeps of one interpreter (the parameters of its run, its invariant), what every move
keeps of a system, and where an overflow is raised. -/

namespace Sys2Proof.Machine

/-! ## Parameters in memory, and the state after a port transaction -/

/-- A parameter Word that exists lies in memory (R50). -/
theorem param_lt {s : State} {k : Nat} {v : Word} (h : s.param k = some v) : s.pc + k < s.mem.length :=
  (List.getElem?_eq_some_iff.1 h).1

/-- An operand comes from a parameter Word in memory (R72). -/
theorem operand_lt {s : State} {k : Nat} {m : Mode} {v : Word} (h : s.operand k m = some v) :
    s.pc + k < s.mem.length := by
  unfold State.operand at h
  split at h
  · cases h
  all_goals exact param_lt ‹_›

/-- A read transaction leaves memory, `pc` and the width alone (R89). -/
theorem ioRead_frame {s u : State} {v : Word} (h : ioRead s = .value v u) :
    u.mem = s.mem ∧ u.pc = s.pc ∧ u.wordBits = s.wordBits := by
  obtain ⟨_, rfl⟩ | ⟨vs, _, rfl⟩ | ⟨q, Q, vs, _, _, _, rfl⟩ := ioRead_value h <;> exact ⟨rfl, rfl, rfl⟩

/-- A write transaction leaves memory alone (R90). -/
theorem ioWrite_mem {s u : State} {v : Word} (h : ioWrite s v = some u) : u.mem = s.mem := by
  obtain ⟨out, _, rfl⟩ | ⟨q, Q, _, _, _, rfl⟩ := ioWrite_some h <;> rfl

/-! ## The parameters of the run -/

/-- `t` has the parameters of `s`: memory length, width, queue capacities, mirroring, and what source and sink are
joined to (R4, R11, R87). -/
structure SameConfiguration (s t : State) : Prop where
  mem_length : t.mem.length = s.mem.length
  wordBits : t.wordBits = s.wordBits
  capacities : t.queues.map Queue.capacity = s.queues.map Queue.capacity
  mirrored : t.mirror.isSome = s.mirror.isSome
  constant_iff : ∀ c, t.source = .constant c ↔ s.source = .constant c
  source_queue_iff : ∀ q, t.source = .queue q ↔ s.source = .queue q
  sink_queue_iff : ∀ q, t.sink = .queue q ↔ s.sink = .queue q

theorem SameConfiguration.refl (s : State) : SameConfiguration s s :=
  ⟨rfl, rfl, rfl, rfl, fun _ => .rfl, fun _ => .rfl, fun _ => .rfl⟩

/-- Storing a Word keeps the configuration: it touches one cell (R33). -/
theorem SameConfiguration.stored {s u : State} (h : SameConfiguration s u) (d v : Word) (n : Nat) :
    SameConfiguration s (u.stored d v n) :=
  { h with mem_length := (List.length_set ..).trans h.mem_length }

/-- Replacing a queue by one of the same capacity keeps every capacity. -/
theorem map_capacity_set {qs : List Queue} {q : Nat} {Q Q' : Queue} (hQ : qs[q]? = some Q)
    (hc : Q'.capacity = Q.capacity) : (qs.set q Q').map Queue.capacity = qs.map Queue.capacity := by
  obtain ⟨hlt, rfl⟩ := List.getElem?_eq_some_iff.1 hQ
  rw [List.map_set, hc, ← List.map_set, List.set_getElem_self]

theorem ioRead_sameConfiguration {s u : State} {v : Word} (h : ioRead s = .value v u) : SameConfiguration s u := by
  have refl := SameConfiguration.refl s
  obtain ⟨_, rfl⟩ | ⟨vs, hs, rfl⟩ | ⟨q, Q, vs, _, hQ, _, rfl⟩ := ioRead_value h
  · exact refl
  · exact { refl with constant_iff := by simp [hs], source_queue_iff := by simp [hs] }
  · exact { refl with capacities := map_capacity_set hQ rfl }

theorem ioWrite_sameConfiguration {s u : State} {v : Word} (h : ioWrite s v = some u) : SameConfiguration s u := by
  have refl := SameConfiguration.refl s
  have hm : (s.mirror.map (·.push v)).isSome = s.mirror.isSome := Option.isSome_map
  obtain ⟨out, hs, rfl⟩ | ⟨q, Q, _, hQ, _, rfl⟩ := ioWrite_some h
  · exact { refl with mirrored := hm, sink_queue_iff := by simp [hs] }
  · exact { refl with mirrored := hm, capacities := map_capacity_set hQ rfl }

theorem Ran.sameConfiguration {i : Instr} {s t : State} (h : Ran i s t) : SameConfiguration s t := by
  have refl := SameConfiguration.refl s
  cases h with
  | stores => exact refl.stored ..
  | inputs _ _ hr => exact (ioRead_sameConfiguration hr).stored ..
  | outputs _ hw => exact { ioWrite_sameConfiguration hw with }
  | jumps => exact { refl with }
  | falls => exact { refl with }
  | halts => exact { refl with }

theorem step_sameConfiguration {s t : State} (h : step s = .next t) : SameConfiguration s t := by
  obtain ⟨_, ⟨e, _, rfl⟩ | ⟨i, _, ⟨_, rfl⟩ | hran⟩⟩ := step_cases h
  · exact { SameConfiguration.refl s with }
  · exact .refl _
  · exact hran.sameConfiguration

/-- Settles O16: only the port transactions and the one store touch a configured field, and each keeps what is
configured of it. -/
theorem stepKeepsTheConfiguration : Obligations.StepKeepsTheConfiguration := by
  intro s t h
  obtain ⟨hlen, hbits, hcap, hmir, hconst, hsrc, hsnk⟩ := step_sameConfiguration h
  exact ⟨hlen, hbits, hcap, hmir, hconst, hsrc, hsnk⟩

/-! ## Queues under the two transactions -/

theorem hasRoom_iff {Q : Queue} : Q.hasRoom = true ↔ ∀ c, Q.capacity = some c → Q.items.length < c := by
  unfold Queue.hasRoom
  cases Q.capacity <;> simp

theorem queue_wf_iff {b : Option Nat} {Q : Queue} :
    Q.wf b = true ↔ (∀ v ∈ Q.items, fitsWord b v = true) ∧ ∀ c, Q.capacity = some c → Q.items.length ≤ c := by
  unfold Queue.wf
  cases Q.capacity <;> simp

/-- A queue with room takes a representable Word (R96). -/
theorem queue_push_wf {b : Option Nat} {Q : Queue} {v : Word} (h : Q.wf b = true) (hr : Q.hasRoom = true)
    (hv : fitsWord b v = true) : (Q.push v).wf b = true := by
  obtain ⟨hfit, _⟩ := queue_wf_iff.1 h
  refine queue_wf_iff.2 ⟨fun w hw => ?_, fun c hc => ?_⟩
  · obtain hw | rfl : w ∈ Q.items ∨ w = v := by simpa using hw
    · exact hfit w hw
    · exact hv
  · have hlt : Q.items.length < c := hasRoom_iff.1 hr c hc
    simpa using hlt

/-- The head of a well-formed queue is representable, and what is left is well formed (R94). -/
theorem queue_pop_wf {b : Option Nat} {Q : Queue} {v : Word} {vs : List Word} (h : Q.wf b = true)
    (hi : Q.items = v :: vs) : fitsWord b v = true ∧ ({ Q with items := vs } : Queue).wf b = true := by
  obtain ⟨hfit, hcap⟩ := queue_wf_iff.1 h
  rw [hi] at hfit hcap
  obtain ⟨hv, hvs⟩ := List.forall_mem_cons.1 hfit
  exact ⟨hv, queue_wf_iff.2 ⟨hvs, fun c hc => (Nat.le_succ _).trans (hcap c hc)⟩⟩

/-- Replacing one queue by a well-formed one keeps all well formed. -/
theorem queues_wf_set {b : Option Nat} {qs : List Queue} {q : Nat} {Q' : Queue} (h : ∀ Q ∈ qs, Q.wf b = true)
    (hQ' : Q'.wf b = true) : ∀ Q ∈ qs.set q Q', Q.wf b = true := by
  intro Q hQ
  rcases List.mem_or_eq_of_mem_set hQ with hQ | rfl
  · exact h Q hQ
  · exact hQ'

/-! ## The invariant under each update of the state -/

theorem State.Inv.raise {s : State} {e : Exn} (h : s.Inv) (he : Recorded s e) : (raise s e).Inv :=
  { h with cause_iff := rfl, record_ok := he }

theorem State.Inv.setPc {s : State} {n : Nat} (h : s.Inv) (hn : n ≤ s.mem.length) : (s.setPc n).Inv :=
  { h with pc_le := hn }

theorem State.Inv.stored {s : State} {d v : Word} {n : Nat} (h : s.Inv) (hv : fitsWord s.wordBits v = true)
    (hn : s.pc + n ≤ s.mem.length) : (s.stored d v n).Inv :=
  { h with
    pc_le := by simpa using hn
    mem_wf := memory_wf_set h.mem_wf hv }

/-- The queues are the caller's and the neighbours' too: whatever they do to them within the width keeps the
invariant. -/
theorem State.Inv.withQueues {s : State} {qs : List Queue} (h : s.Inv) (hq : ∀ Q ∈ qs, Q.wf s.wordBits = true)
    (hn : qs.length = s.queues.length) : (s.withQueues qs).Inv :=
  { h with
    queues_wf := hq
    source_wired := (congrArg (s.source.wired ·) hn).trans h.source_wired
    sink_wired := (congrArg (s.sink.wired ·) hn).trans h.sink_wired }

theorem State.Inv.setQueue {s : State} {q : Nat} {Q : Queue} (h : s.Inv) (hQ : Q.wf s.wordBits = true) :
    (s.setQueue q Q).Inv :=
  h.withQueues (queues_wf_set h.queues_wf hQ) (List.length_set ..)

theorem State.Inv.mirrored {s : State} {v : Word} (h : s.Inv) (hv : fitsWord s.wordBits v = true) :
    (s.mirrored v).Inv := by
  refine { h with mirror_wf := ?_ }
  have hm := h.mirror_wf
  show (s.mirror.map (·.push v)).all (Overflow.wf s.wordBits) = true
  cases ho : s.mirror with
  | none => rfl
  | some o =>
    rw [ho] at hm
    exact overflow_push_wf hm hv

/-- Halting a Running machine: no fault is recorded, and none has been (R15, R110). -/
theorem State.Inv.halted {s : State} {n : Nat} (h : s.Inv) (hr : s.runState = .running) (hn : n ≤ s.mem.length) :
    ({ s with runState := .halted, pc := n } : State).Inv :=
  { h with
    pc_le := hn
    cause_iff := h.cause_iff.trans (by rw [hr]; rfl) }

/-- A read transaction answers a Word of the width and keeps the invariant (R85, R89). -/
theorem ioRead_inv {s u : State} {v : Word} (h : s.Inv) (hr : ioRead s = .value v u) :
    fitsWord s.wordBits v = true ∧ u.Inv := by
  have hwf := h.source_wf
  obtain ⟨hs, rfl⟩ | ⟨vs, hs, rfl⟩ | ⟨q, Q, vs, _, hQ, hi, rfl⟩ := ioRead_value hr
  · rw [hs] at hwf
    exact ⟨hwf, h⟩
  · rw [hs] at hwf
    obtain ⟨hv, hvs⟩ := Bool.and_eq_true_iff.1 (List.all_cons.symm.trans hwf)
    exact ⟨hv, { h with source_wf := hvs, source_wired := rfl }⟩
  · obtain ⟨hv, hQ'⟩ := queue_pop_wf (h.queues_wf Q (List.mem_of_getElem? hQ)) hi
    exact ⟨hv, h.setQueue hQ'⟩

/-- A write transaction with a Word of the width keeps the invariant (R90). -/
theorem ioWrite_inv {s u : State} {v : Word} (h : s.Inv) (hv : fitsWord s.wordBits v = true)
    (hw : ioWrite s v = some u) : u.Inv := by
  have hwf := h.sink_wf
  obtain ⟨out, hs, rfl⟩ | ⟨q, Q, _, hQ, hroom, rfl⟩ := ioWrite_some hw
  · rw [hs] at hwf
    have hlog : (s.setSink (.log (out ++ [v]))).Inv :=
      { h with
        sink_wf := by simpa [Sink.wf, hv] using hwf
        sink_wired := rfl }
    exact hlog.mirrored hv
  · exact (h.setQueue (queue_push_wf (h.queues_wf Q (List.mem_of_getElem? hQ)) hroom hv)).mirrored hv

/-- An instruction that completes keeps the invariant. `pc` stays within memory because every Word it passes has been
fetched (R12, R74). -/
theorem Ran.inv {i : Instr} {s t : State} (hran : Ran i s t) (h : s.Inv) (hr : s.runState = .running)
    (hpc : s.pc < s.mem.length) : t.Inv := by
  cases hran with
  | stores _ hd _ hf => exact h.stored (hf h.width) (param_lt hd)
  | inputs hd _ hio =>
    obtain ⟨hmem, hpc', hbits⟩ := ioRead_frame hio
    obtain ⟨hv, hu⟩ := ioRead_inv h hio
    refine hu.stored (hbits ▸ hv) ?_
    rw [hmem, hpc']
    exact param_lt hd
  | outputs ha hw =>
    refine (ioWrite_inv h (fitsWord_of_operand h.mem_wf ha) hw).setPc ?_
    rw [ioWrite_mem hw]
    exact operand_lt ha
  | jumps _ _ hv =>
    obtain ⟨_, hlt⟩ := validAddr_iff.1 hv
    exact h.setPc (by omega)
  | falls _ hb => exact h.setPc (operand_lt hb)
  | halts => exact h.halted hr hpc

theorem step_inv {s t : State} (h : s.Inv) (hs : step s = .next t) : t.Inv := by
  obtain ⟨hr, ⟨e, he, rfl⟩ | ⟨i, hi, ⟨_, rfl⟩ | hran⟩⟩ := step_cases hs
  · exact h.raise he
  · exact h
  · obtain ⟨w, hw, _⟩ := fetchDecode_ok.1 hi
    exact hran.inv h hr (param_lt hw)

/-- Settles O18, from what each update of the state keeps of the invariant, by the ways a step can end. -/
theorem stepKeepsTheInvariant : Obligations.StepKeepsTheInvariant := fun _ _ h hs => step_inv h hs

/-! ## Several interpreters -/

/-- The parts of an interpreter that the wiring of a system speaks of are alike: its width and its queues (R137). -/
structure SameWiring (c d : Interp) : Prop where
  wordBits : d.wordBits = c.wordBits
  source_queue_iff : ∀ q, d.source = .queue q ↔ c.source = .queue q
  sink_queue_iff : ∀ q, d.sink = .queue q ↔ c.sink = .queue q

theorem SameWiring.refl (c : Interp) : SameWiring c c := ⟨rfl, fun _ => .rfl, fun _ => .rfl⟩

theorem SameConfiguration.sameWiring {s t : State} (h : SameConfiguration s t) : SameWiring s.toInterp t.toInterp :=
  ⟨h.wordBits, h.source_queue_iff, h.sink_queue_iff⟩

theorem view_iff {y : System} {i : Nat} {s : State} :
    y.view i = some s ↔ y.insts[i]? = some s.toInterp ∧ s.queues = y.queues := by
  unfold System.view
  cases hc : y.insts[i]? with
  | none => simp
  | some c =>
    simp only [Option.map_some, Option.some.injEq]
    exact ⟨by rintro rfl; exact ⟨rfl, rfl⟩, by rintro ⟨rfl, hq⟩; cases s; cases hq; rfl⟩

/-- A system inherits the wiring clauses from one whose interpreters are wired alike; what is left to show is each
interpreter's own invariant. -/
theorem System.Inv.of_sameWiring {y z : System} (hy : y.Inv)
    (hw : ∀ (i : Nat) (d : Interp), z.insts[i]? = some d → ∃ c, y.insts[i]? = some c ∧ SameWiring c d)
    (each : ∀ i s, z.view i = some s → s.Inv) : z.Inv := by
  have source_back : ∀ i q, z.sourceAt i = some (.queue q) → y.sourceAt i = some (.queue q) := by
    intro i q h
    obtain ⟨d, hd, hs⟩ := Option.map_eq_some_iff.1 h
    obtain ⟨c, hc, hcd⟩ := hw i d hd
    exact Option.map_eq_some_iff.2 ⟨c, hc, (hcd.source_queue_iff q).1 hs⟩
  have sink_back : ∀ i q, z.sinkAt i = some (.queue q) → y.sinkAt i = some (.queue q) := by
    intro i q h
    obtain ⟨d, hd, hs⟩ := Option.map_eq_some_iff.1 h
    obtain ⟨c, hc, hcd⟩ := hw i d hd
    exact Option.map_eq_some_iff.2 ⟨c, hc, (hcd.sink_queue_iff q).1 hs⟩
  have width_back : ∀ d ∈ z.insts, ∃ c ∈ y.insts, d.wordBits = c.wordBits := by
    intro d hd
    obtain ⟨i, hi⟩ := List.mem_iff_getElem?.1 hd
    obtain ⟨c, hc, hcd⟩ := hw i d hi
    exact ⟨c, List.mem_of_getElem? hc, hcd.wordBits⟩
  refine ⟨fun i j q hi hj => hy.one_reader i j q (source_back i q hi) (source_back j q hj),
    fun i j q hi hj => hy.one_writer i j q (sink_back i q hi) (sink_back j q hj), fun d hd d' hd' => ?_, each⟩
  obtain ⟨c, hc, hcd⟩ := width_back d hd
  obtain ⟨c', hc', hcd'⟩ := width_back d' hd'
  rw [hcd, hcd', hy.one_width c hc c' hc']

/-- The caller replaces one queue by a well-formed one: the system's invariant stays. -/
theorem System.Inv.setQueue {y : System} {q : Nat} {Q' : Queue} (hy : y.Inv)
    (hQ' : ∀ i s, y.view i = some s → Q'.wf s.wordBits = true) :
    ({ y with queues := y.queues.set q Q' } : System).Inv := by
  refine hy.of_sameWiring (fun i c hc => ⟨c, hc, .refl c⟩) fun i s hs => ?_
  obtain ⟨hc, hqs⟩ := view_iff.1 hs
  have hv : y.view i = some (s.withQueues y.queues) := view_iff.2 ⟨hc, rfl⟩
  have hnew := (hy.each i _ hv).setQueue (q := q) (hQ' i _ hv)
  cases s; cases hqs
  exact hnew

/-- Interpreter `i` becomes a state that is wired alike and meets the invariant: the system's invariant stays. The other
interpreters have the same width, so the queues that suit this one suit them. -/
theorem System.Inv.put {y : System} {i : Nat} {s t : State} (hy : y.Inv) (hv : y.view i = some s)
    (hw : SameWiring s.toInterp t.toInterp) (hn : t.queues.length = y.queues.length) (ht : t.Inv) :
    (y.put i t).Inv := by
  obtain ⟨hi, _⟩ := view_iff.1 hv
  have lookup : ∀ (j : Nat) (d : Interp), (y.put i t).insts[j]? = some d →
      (j = i ∧ d = t.toInterp) ∨ y.insts[j]? = some d := by
    intro j d hd
    rw [System.put, List.getElem?_set] at hd
    split at hd
    · split at hd
      · exact .inl ⟨(‹i = j›).symm, (Option.some.inj hd).symm⟩
      · cases hd
    · exact .inr hd
  refine hy.of_sameWiring (fun j d hd => ?_) fun j u hu => ?_
  · obtain ⟨rfl, rfl⟩ | hd := lookup j d hd
    · exact ⟨_, hi, hw⟩
    · exact ⟨d, hd, .refl d⟩
  · obtain ⟨hd, hqs⟩ := view_iff.1 hu
    obtain ⟨_, he⟩ | hd := lookup j _ hd
    · cases u; cases he; cases hqs
      exact ht
    · have hbits : u.wordBits = t.wordBits :=
        (hy.one_width _ (List.mem_of_getElem? hd) _ (List.mem_of_getElem? hi)).trans hw.wordBits.symm
      have hu' : (u.withQueues y.queues).Inv := hy.each j _ (view_iff.2 ⟨hd, rfl⟩)
      have hnew := hu'.withQueues (qs := t.queues) (fun Q hQ => hbits ▸ ht.queues_wf Q hQ) hn
      cases u; cases hqs
      exact hnew

/-- A take from the overflow sink reads one more value that is there (R7). -/
theorem State.Inv.takeMirror {s : State} {o : Overflow} (h : s.Inv) (hm : s.mirror = some o)
    (ht : o.taken < o.log.length) :
    ({ s with mirror := some { o with taken := o.taken + 1 } } : State).Inv := by
  have hwf := h.mirror_wf
  rw [hm] at hwf
  refine { h with mirror_wf := ?_ }
  simp only [Option.all_some, Overflow.wf, Bool.and_eq_true, decide_eq_true_eq] at hwf ⊢
  exact ⟨hwf.1, ht⟩

theorem step_queues_length {s t : State} (h : step s = .next t) : t.queues.length = s.queues.length := by
  simpa using congrArg List.length (step_sameConfiguration h).capacities

/-- Settles O51, move by move: a step by the invariant of one interpreter, a move of the caller by what it does to the
one queue or the one count. -/
theorem movesKeepTheSystemInvariant : Obligations.MovesKeepTheSystemInvariant := by
  intro y z m hy hm
  cases m with
  | step i =>
    obtain ⟨s, t, hv, _, hst, rfl⟩ := stepAt_iff.1 hm
    obtain ⟨_, hqs⟩ := view_iff.1 hv
    exact hy.put hv (step_sameConfiguration hst).sameWiring (hqs ▸ step_queues_length hst)
      (step_inv (hy.each i s hv) hst)
  | enqueue q v =>
    obtain ⟨Q, hQ, _, hroom, hfit, rfl⟩ := enqueue_iff.1 hm
    refine hy.setQueue fun i s hv => ?_
    obtain ⟨hi, hqs⟩ := view_iff.1 hv
    have hwf := (hy.each i s hv).queues_wf Q (hqs ▸ List.mem_of_getElem? hQ)
    exact queue_push_wf hwf hroom (hfit _ (List.mem_of_getElem? hi))
  | take q =>
    obtain ⟨Q, v, vs, hQ, hitems, _, rfl⟩ := take_iff.1 hm
    refine hy.setQueue fun i s hv => ?_
    obtain ⟨_, hqs⟩ := view_iff.1 hv
    exact (queue_pop_wf ((hy.each i s hv).queues_wf Q (hqs ▸ List.mem_of_getElem? hQ)) hitems).2
  | takeOverflow i =>
    obtain ⟨c, o, hc, hmir, ht, rfl⟩ := takeOverflow_iff.1 hm
    have hv : y.view i = some ⟨c, y.queues⟩ := view_iff.2 ⟨hc, rfl⟩
    exact hy.put hv (t := ⟨{ c with mirror := some { o with taken := o.taken + 1 } }, y.queues⟩)
      { SameWiring.refl c with } rfl ((hy.each i _ hv).takeMirror hmir ht)

/-! ## The caller's moves and the result -/

/-- The end and the result of a run read nothing of what the caller has taken (R141, R161). -/
theorem ended_result_congr {y z : System} (h : z.insts.map Interp.beforeTakes = y.insts.map Interp.beforeTakes) :
    z.ended = y.ended ∧ z.result = y.result := by
  have ended_eq : ∀ x : System, x.ended = (x.insts.map Interp.beforeTakes).all fun c => c.runState == .halted := by
    intro x
    rw [List.all_map]
    rfl
  have last_eq : ∀ x : System, (x.insts.getLast?.bind fun c => c.mirror.bind fun o => o.log.getLast?) =
      (x.insts.map Interp.beforeTakes).getLast?.bind fun c => c.mirror.bind fun o => o.log.getLast? := by
    intro x
    rw [List.getLast?_map, Option.bind_map]
    refine congrArg _ (funext fun c => ?_)
    show _ = (c.mirror.map fun o => { o with taken := 0 }).bind fun o => o.log.getLast?
    rw [Option.bind_map]
    rfl
  have hended : z.ended = y.ended := by rw [ended_eq, ended_eq, h]
  refine ⟨hended, ?_⟩
  unfold System.result
  rw [hended, last_eq, last_eq, h]

/-- Settles O55: a queue move needs a queue that lacks an interpreter at one end, and a take from an overflow sink
changes only a count that `beforeTakes` forgets. -/
theorem callerMovesReachNoInterpreter : Obligations.CallerMovesReachNoInterpreter := by
  intro y z m hcaller hm
  suffices h : z.insts.map Interp.beforeTakes = y.insts.map Interp.beforeTakes ∧
      ∀ q, y.hasWriter q = true → y.hasReader q = true → z.queues[q]? = y.queues[q]? by
    obtain ⟨hinsts, hqueues⟩ := h
    obtain ⟨hended, hresult⟩ := ended_result_congr hinsts
    exact ⟨hinsts, hended, hresult, hqueues⟩
  cases m with
  | step i => exact absurd rfl (hcaller i)
  | enqueue q v =>
    obtain ⟨Q, _, hnone, _, _, rfl⟩ := enqueue_iff.1 hm
    refine ⟨rfl, fun p hp _ => List.getElem?_set_ne ?_⟩
    rintro rfl
    simp [hnone] at hp
  | take q =>
    obtain ⟨Q, v, vs, _, _, hnone, rfl⟩ := take_iff.1 hm
    refine ⟨rfl, fun p _ hp => List.getElem?_set_ne ?_⟩
    rintro rfl
    simp [hnone] at hp
  | takeOverflow i =>
    obtain ⟨c, o, hc, hmir, _, rfl⟩ := takeOverflow_iff.1 hm
    refine ⟨?_, fun _ _ _ => rfl⟩
    obtain ⟨hlt, rfl⟩ := List.getElem?_eq_some_iff.1 hc
    have hsame : Interp.beforeTakes { y.insts[i] with mirror := some { o with taken := o.taken + 1 } } =
        Interp.beforeTakes y.insts[i] := by
      simp [Interp.beforeTakes, hmir]
    rw [List.map_set, hsame, ← List.map_set, List.set_getElem_self]

/-- A system with a result has ended, so none of its interpreters has a step to take (R76, R141). -/
theorem stepAt_eq_none_of_result {y : System} {v : Word} (h : y.result = some v) (i : Nat) : y.stepAt i = none := by
  rw [Option.eq_none_iff_forall_not_mem]
  intro z hz
  obtain ⟨s, t, hv, he, _, _⟩ := stepAt_iff.1 hz
  obtain ⟨hi, _⟩ := view_iff.1 hv
  obtain ⟨hrunning, _⟩ := enabled_iff.1 he
  have hended : y.ended = true := by
    by_contra hne
    simp [System.result, hne] at h
  have hhalted := List.all_eq_true.1 hended _ (List.mem_of_getElem? hi)
  simp [hrunning] at hhalted

/-- Settles O58: no interpreter can step once there is a result, and the caller's moves leave it as it was. -/
theorem resultSurvivesEveryMove : Obligations.ResultSurvivesEveryMove := by
  intro y z m v hres hm
  by_cases hstep : ∃ i, m = .step i
  · obtain ⟨i, rfl⟩ := hstep
    have hnone := stepAt_eq_none_of_result hres i
    exact absurd (hm.symm.trans hnone) (by simp)
  · obtain ⟨_, _, hresult, _⟩ := callerMovesReachNoInterpreter y z m (fun i hi => hstep ⟨i, hi⟩) hm
    exact hresult.trans hres

/-! ## Overflow -/

theorem fitsWord_some_eq_false {W : Nat} {v : Int} (h : v < -(2 ^ (W - 1)) ∨ 2 ^ (W - 1) ≤ v) :
    fitsWord (some W) v = false := by
  have hcast : ((2 ^ (W - 1) : Nat) : Int) = 2 ^ (W - 1) := by push_cast; rfl
  simp only [fitsWord, decide_eq_false_iff_not, hcast]
  omega

/-- A format F2R1W operation whose result does not exist raises at the state it began in, whatever its destination
(R126 item 5). -/
theorem binaryToMemory_raises {compute : Word → Word → Except Exn Word} {m1 m2 : Mode} {s : State} {a b d : Word}
    {e : Exn} (ha : s.operand 1 m1 = some a) (hb : s.operand 2 m2 = some b) (hd : s.param 3 = some d)
    (hc : compute a b = .error e) : binaryToMemory compute m1 m2 s = .next (raise s e) := by
  simp [binaryToMemory, bind, Except.bind, readParam_ok.2 ha, readParam_ok.2 hb, writeParam_ok.2 hd, hc]

/-- Settles O36: the exact result is out of range, and the compute phase comes before the store. -/
theorem overflowRaises : Obligations.OverflowRaises := by
  intro s m1 m2 m3 W a b d hW ha hb hd
  have raises : ∀ r : Int, (r < -(2 ^ (W - 1)) ∨ 2 ^ (W - 1) ≤ r) →
      exactResult s.wordBits r = .error arithmeticOverflow := fun r hr =>
    exactResult_error.2 ⟨hW ▸ fitsWord_some_eq_false hr, rfl⟩
  refine ⟨fun h => ?_, fun h => ?_⟩
  · exact binaryToMemory_raises (compute := fun a b : Int => exactResult s.wordBits (a + b)) ha hb hd (raises _ h)
  · exact binaryToMemory_raises (compute := fun a b : Int => exactResult s.wordBits (a * b)) ha hb hd (raises _ h)

end Sys2Proof.Machine
end

section
/-! PROOFS. Scope: the state of one interpreter. Where a step leaves the program counter, what construction and reset
leave, and what a step reaches of a system. -/

namespace Sys2Proof.Machine

/-! ## A step that completes -/

/-- A Running machine's step is its decoded instruction executed (R70). -/
theorem step_eq_exec {s : State} {i : Instr} (hr : s.runState = .running) (hi : fetchDecode s = .ok i) :
    step s = exec i s := by
  simp [step, hr, hi]

/-- A step that neither waits nor faults completes the decoded instruction. -/
theorem step_completes {s t : State} {i : Instr} (h : step s = .next t) (hi : fetchDecode s = .ok i)
    (hw : s.waiting = false) (ht : t.runState ≠ .faulted) : exec i s = .next t ∧ Ran i s t := by
  obtain ⟨hr, ⟨e, _, rfl⟩ | ⟨j, hj, hcase⟩⟩ := step_cases h
  · exact absurd rfl ht
  · obtain rfl : j = i := Except.ok.inj (hj.symm.trans hi)
    refine ⟨step_eq_exec hr hi ▸ h, ?_⟩
    obtain ⟨hheld, _⟩ | hran := hcase
    · have hwaits : s.waiting = true := waiting_iff.2 ⟨hr, j, hi, hheld⟩
      simp [hw] at hwaits
    · exact hran

/-! ## The program counter -/

/-- An operation that stores to its third parameter has four Words (R50, R64). -/
theorem length_of_destParam {i : Instr} (h : Instr.destParam i = some 3) : i.length = 4 := by
  cases i <;> simp [Instr.destParam] at h <;> rfl

/-- An instruction other than a jump leaves `pc` past its Words (R13, R74). -/
theorem Ran.pc_eq_add_length {i : Instr} {s t : State} (h : Ran i s t)
    (hj : ∀ m1 m2, i ≠ .jumpIfTrue m1 m2 ∧ i ≠ .jumpIfFalse m1 m2) : t.pc = s.pc + i.length := by
  cases h with
  | stores hi => rw [length_of_destParam hi, stored_pc]
  | inputs _ _ hr =>
    obtain ⟨_, hpc, _⟩ := ioRead_frame hr
    rw [stored_pc, hpc]
    rfl
  | outputs => rfl
  | @jumps _ _ m1 m2 _ hi | @falls _ _ m1 m2 _ hi =>
    obtain ⟨hne, hne'⟩ := hj m1 m2
    exact absurd hi (not_or.2 ⟨hne, hne'⟩)
  | halts => rfl

/-- A jump that does not fault leaves `pc` at its target exactly, or past its three Words (R102). -/
theorem jumpWhen_pc {taken : Word → Bool} {m1 m2 : Mode} {s t : State} (h : jumpWhen taken m1 m2 s = .next t)
    (ht : t.runState ≠ .faulted) :
    ∃ a b, s.operand 1 m1 = some a ∧ s.operand 2 m2 = some b ∧
      t.pc = if taken a = true then b.toNat else s.pc + 3 := by
  obtain ⟨e, _, rfl⟩ | ⟨a, b, ha, hb, hcase⟩ := jumpWhen_cases h
  · exact absurd rfl ht
  · refine ⟨a, b, ha, hb, ?_⟩
    obtain ⟨htaken, _, rfl⟩ | ⟨hfalls, rfl⟩ := hcase
    · rw [if_pos htaken, setPc_pc]
    · rw [if_neg (Bool.eq_false_iff.1 hfalls), setPc_pc]

/-- Settles O15: a jump by the two ways it completes, every other operation by its length. -/
theorem programCounterAfterAStep : Obligations.ProgramCounterAfterAStep := by
  intro s t i h hi hw ht
  obtain ⟨hexec, hran⟩ := step_completes h hi hw ht
  cases i with
  | jumpIfTrue m1 m2 => simpa only [bne_iff_ne] using jumpWhen_pc (taken := fun a : Int => a != 0) hexec ht
  | jumpIfFalse m1 m2 => simpa only [beq_iff_eq] using jumpWhen_pc (taken := fun a : Int => a == 0) hexec ht
  | add | multiply | lessThan | equals | input | output | halt => exact hran.pc_eq_add_length (by simp)

/-! ## Construction and reset -/

/-- A constructed machine whose arguments fit the width and are wired meets the invariant (R22, R150). -/
theorem construct_inv {p : List Word} {src : Source} {snk : Sink} {mir : Option Overflow} {b : Option Nat}
    {qs : List Queue} (hwidth : widthOk b = true) (hp : p.all (fitsWord b) = true) (hsrc : src.wf b = true)
    (hsnk : snk.wf b = true) (hmir : mir.all (Overflow.wf b) = true) (hqs : ∀ Q ∈ qs, Q.wf b = true)
    (hsrc' : src.wired qs.length = true) (hsnk' : snk.wired qs.length = true) :
    (State.construct p src snk mir b qs).Inv where
  pc_le := Nat.zero_le _
  width := hwidth
  mem_wf := hp
  source_wf := hsrc
  sink_wf := hsnk
  mirror_wf := hmir
  queues_wf := hqs
  source_wired := hsrc'
  sink_wired := hsnk'
  cause_iff := rfl
  record_ok := rfl

/-- Settles O20: `pc` is 0 and no fault is recorded; every other clause is what is asked of an argument. -/
theorem constructionMeetsTheInvariant : Obligations.ConstructionMeetsTheInvariant := by
  intro p src snk mir b qs
  exact ⟨⟨rfl, rfl, rfl, rfl, rfl⟩, construct_inv⟩

/-- Settles O19: reset is construction with nothing supplied, and nothing always fits. -/
theorem resetMeetsTheInvariant : Obligations.ResetMeetsTheInvariant :=
  construct_inv rfl rfl rfl rfl rfl (List.forall_mem_nil _) rfl rfl

/-! ## What a step reaches of a system -/

theorem ioRead_runState {s u : State} {v : Word} (h : ioRead s = .value v u) : u.runState = s.runState := by
  obtain ⟨_, rfl⟩ | ⟨vs, _, rfl⟩ | ⟨q, Q, vs, _, _, _, rfl⟩ := ioRead_value h <;> rfl

theorem ioWrite_runState {s u : State} {v : Word} (h : ioWrite s v = some u) : u.runState = s.runState := by
  obtain ⟨out, _, rfl⟩ | ⟨q, Q, _, _, _, rfl⟩ := ioWrite_some h <;> rfl

/-- An instruction that completes leaves the run state alone or halts. -/
theorem Ran.runState {i : Instr} {s t : State} (h : Ran i s t) :
    t.runState = s.runState ∨ t.runState = .halted := by
  cases h with
  | inputs _ _ hr => exact .inl ((stored_runState ..).trans (ioRead_runState hr))
  | outputs _ hw => exact .inl ((setPc_runState ..).trans (ioWrite_runState hw))
  | stores | jumps | falls => exact .inl rfl
  | halts => exact .inr rfl

/-- A step that faults is an exception taken at the state it began in (R127, R128). -/
theorem step_faulted {s t : State} (h : step s = .next t) (ht : t.runState = .faulted) :
    ∃ e, Recorded s e ∧ t = raise s e := by
  obtain ⟨hr, hraise | ⟨i, _, ⟨_, rfl⟩ | hran⟩⟩ := step_cases h
  · exact hraise
  · simp [hr] at ht
  · obtain hsame | hhalted := hran.runState
    · simp [hsame, hr] at ht
    · simp [hhalted] at ht

/-- An enabled step leaves every queue that its port does not name (R40, R136). -/
theorem step_queue_of_not_port {s t : State} {q : Nat} (he : s.enabled = true) (h : step s = .next t)
    (hsrc : s.source ≠ .queue q) (hsnk : s.sink ≠ .queue q) : t.queues[q]? = s.queues[q]? := by
  obtain ⟨hq, _⟩ | ⟨p, Q, v, vs, hp, _, _, hq, _⟩ | ⟨p, Q, v, hp, _, _, hq, _⟩ := step_locality he h
  · rw [hq]
  · have hne : p ≠ q := fun hpq => hsrc (hpq ▸ hp)
    rw [hq, List.getElem?_set_ne hne]
  · have hne : p ≠ q := fun hpq => hsnk (hpq ▸ hp)
    rw [hq, List.getElem?_set_ne hne]

/-- Settles O52: a system's step puts back one interpreter and the queues, of which only its port's can have changed,
and none when it takes an exception. -/
theorem stepTouchesOnlyItself : Obligations.StepTouchesOnlyItself := by
  intro y z i c c' hc hstep hc'
  obtain ⟨s, t, hv, he, hst, rfl⟩ := stepAt_iff.1 hstep
  obtain ⟨hi, hqs⟩ := view_iff.1 hv
  obtain rfl : c = s.toInterp := Option.some.inj (hc.symm.trans hi)
  have hput : (y.put i t).insts[i]? = some t.toInterp :=
    List.getElem?_set_self (List.getElem?_eq_some_iff.1 hi).1
  obtain rfl : c' = t.toInterp := Option.some.inj (hc'.symm.trans hput)
  refine ⟨fun j hj => List.getElem?_set_ne hj.symm, List.length_set .., fun q hsrc hsnk => ?_, fun hfault => ?_⟩
  · rw [← hqs]
    exact step_queue_of_not_port he hst hsrc hsnk
  · obtain ⟨e, _, rfl⟩ := step_faulted hst hfault
    exact hqs

end Sys2Proof.Machine
end

section
/-! PROOFS. Scope: memory and the port. What a checked read and a checked write do, which cell an instruction can
change, and what of the port an execution cannot read: the record in a log, and the source of anything but Input. -/

namespace Sys2Proof.Machine

/-! ## Checked reads and writes -/

theorem validAddr_eq_false_iff {m : Memory} {a : Int} : validAddr m a = false ↔ a < 0 ∨ m.length ≤ a := by
  rw [← Bool.not_eq_true, validAddr_iff]
  omega

/-- A checked read depends on memory only through the cell it names (R32). -/
theorem memRead_congr {m m' : Memory} {a : Word} (h : cell m' a = cell m a) (g : AccessTag) :
    memRead m' a g = memRead m a g := by
  cases hr : memRead m a g with
  | ok v => exact memRead_ok.2 (h.trans (memRead_ok.1 hr))
  | error e =>
    obtain ⟨hnone, rfl⟩ := memRead_error.1 hr
    exact memRead_error.2 ⟨h.trans hnone, rfl⟩

/-- Settles O42: a read by the cell it names, a Position parameter by its Word, which is fetched first. -/
theorem memReadIsChecked : Obligations.MemReadIsChecked := by
  refine ⟨fun m a g => ⟨?_, fun hout => ?_⟩, fun s k => ⟨rfl, fun p hp => ?_⟩⟩
  · rintro n rfl v hv
    exact memRead_ok.2 ((cell_natCast m n).trans hv)
  · exact memRead_error.2 ⟨cell_eq_none.2 (validAddr_eq_false_iff.2 hout), rfl⟩
  · simp [readParam, fetchAt_ok.2 hp, bind, Except.bind]

/-- Settles O43: the new memory's cells are the old ones but for the one written. -/
theorem memWriteIsChecked : Obligations.MemWriteIsChecked := by
  refine fun m a v => ⟨fun h0 hlt => ?_, fun hout => ?_⟩
  · have hvalid : validAddr m a = true := validAddr_iff.2 ⟨h0, hlt⟩
    refine ⟨m.set a.toNat v, memWrite_ok.2 ⟨hvalid, rfl⟩, List.length_set .., fun x g => ?_⟩
    split
    · subst x
      exact memRead_ok.2 (cell_set_self hvalid)
    · exact memRead_congr (cell_set_ne h0 ‹_›) g
  · exact memWrite_error.2 ⟨validAddr_eq_false_iff.2 hout, rfl⟩

/-! ## The one cell an instruction can change -/

/-- After a store every address but the destination reads as before (R33, R75). -/
theorem memRead_stored_of_ne {s : State} {a d v : Word} {n : Nat} (hd : validAddr s.mem d = true) (h : a ≠ d)
    (g : AccessTag) : memRead (s.stored d v n).mem a g = memRead s.mem a g :=
  memRead_congr (cell_set_ne (validAddr_iff.1 hd).1 h) g

/-- An executed instruction leaves every address but its destination parameter's reading as before (R44, R75). -/
theorem exec_memRead_of_ne_destAddr {i : Instr} {s t : State} (h : exec i s = .next t) {a : Int}
    (ha : s.destAddr i ≠ some a) (g : AccessTag) : memRead t.mem a g = memRead s.mem a g := by
  obtain ⟨e, _, rfl⟩ | ⟨_, rfl⟩ | hran := exec_cases h
  · rfl
  · rfl
  · cases hran with
    | @stores _ _ d _ hi hd hv =>
      have hdest : s.destAddr i = some d := by simpa [State.destAddr, hi] using hd
      exact memRead_stored_of_ne hv (fun had => ha (hdest.trans (congrArg some had.symm))) g
    | @inputs _ _ u d _ hd hv hr =>
      obtain ⟨hmem, _⟩ := ioRead_frame hr
      rw [memRead_stored_of_ne (hmem ▸ hv) (fun had => ha (hd.trans (congrArg some had.symm))) g, hmem]
    | outputs _ hw => rw [setPc_mem, ioWrite_mem hw]
    | jumps | falls | halts => rfl

/-- Settles O17: the step executes the decoded instruction. -/
theorem stepWritesOnlyTheDestination : Obligations.StepWritesOnlyTheDestination := by
  intro s t i h hi a g ha
  obtain ⟨hr, _⟩ := step_cases h
  exact exec_memRead_of_ne_destAddr (step_eq_exec hr hi ▸ h) ha g

/-- An operation whose destination is parameter 3 stores one Word there, or faults (R75). -/
theorem exec_storing_cases {i : Instr} {s t : State} (hi : Instr.destParam i = some 3) (h : exec i s = .next t) :
    (∃ e, t = raise s e) ∨ ∃ d v, t = s.stored d v 4 := by
  obtain ⟨e, _, rfl⟩ | ⟨hheld, _⟩ | hran := exec_cases h
  · exact .inl ⟨e, rfl⟩
  · cases i with
    | input | output => cases hi
    | add | multiply | jumpIfTrue | jumpIfFalse | lessThan | equals | halt => cases hheld
  · cases hran with
    | stores => exact .inr ⟨_, _, rfl⟩
    | inputs | outputs | halts => cases hi
    | jumps hj | falls hj => obtain rfl | rfl := hj <;> cases hi

/-- Settles O31: a store touches memory and `pc` only, an exception the run state and the fault record only. -/
theorem frameOfMemoryOperations : Obligations.FrameOfMemoryOperations := by
  intro s t m1 m2 m3 i hi h
  have hdest : Instr.destParam i = some 3 := by obtain rfl | rfl | rfl | rfl := hi <;> rfl
  have hreads : ∀ (a : Int) (g : AccessTag), s.param 3 ≠ some a → memRead t.mem a g = memRead s.mem a g := by
    intro a g ha
    exact exec_memRead_of_ne_destAddr h (by simpa [State.destAddr, hdest] using ha) g
  obtain ⟨e, rfl⟩ | ⟨d, v, rfl⟩ := exec_storing_cases hdest h
  · exact ⟨rfl, rfl, rfl, rfl, rfl, .inr ⟨rfl, rfl, rfl⟩, hreads⟩
  · exact ⟨rfl, rfl, rfl, rfl, rfl, .inl ⟨rfl, rfl, rfl⟩, hreads⟩

/-! ## The same execution over another port -/

/-- The same interpreter with its source and its sink replaced by their images. -/
def State.mapPort (g : Source → Source) (k : Sink → Sink) (s : State) : State :=
  { s with source := g s.source, sink := k s.sink }

/-- The same answer of `IO.read()`, with the state after it replaced by its image. -/
def ReadAnswer.mapState (f : State → State) : ReadAnswer → ReadAnswer
  | .value v u => .value v (f u)
  | .exhausted => .exhausted
  | .noAnswer => .noAnswer

theorem setSource_eq_mapPort (s : State) (src : Source) : s.setSource src = s.mapPort (fun _ => src) id := rfl

section
variable {g : Source → Source} {k : Sink → Sink} {s t : State}

theorem mapPort_complete {r : Except Exn State} (h : complete s r = .next t) :
    complete (s.mapPort g k) (State.mapPort g k <$> r) = .next (t.mapPort g k) := by
  cases r <;> (obtain rfl := Host.Outcome.next.inj h; rfl)

theorem mapPort_storeWord (d v : Word) (n : Nat) :
    storeWord (s.mapPort g k) d v n = State.mapPort g k <$> storeWord s d v n := by
  unfold storeWord
  rw [map_bind]
  rfl

/-- The port is no operand of a format F2R1W operation (R75). -/
theorem mapPort_binaryToMemory {compute : Word → Word → Except Exn Word} {m1 m2 : Mode}
    (h : binaryToMemory compute m1 m2 s = .next t) :
    binaryToMemory compute m1 m2 (s.mapPort g k) = .next (t.mapPort g k) := by
  have hmap := mapPort_complete (g := g) (k := k) h
  simp only [map_bind, ← mapPort_storeWord] at hmap
  exact hmap

/-- The port is no operand of a jump (R102). -/
theorem mapPort_jumpWhen {taken : Word → Bool} {m1 m2 : Mode} (h : jumpWhen taken m1 m2 s = .next t) :
    jumpWhen taken m1 m2 (s.mapPort g k) = .next (t.mapPort g k) := by
  have hmap := mapPort_complete (g := g) (k := k) h
  simp only [map_bind, apply_ite, map_pure] at hmap
  exact hmap

theorem mapPort_execInput {m1 : Mode} (hio : ioRead (s.mapPort g k) = (ioRead s).mapState (State.mapPort g k))
    (h : execInput m1 s = .next t) : execInput m1 (s.mapPort g k) = .next (t.mapPort g k) := by
  have hdest : inputDest (s.mapPort g k) = inputDest s := rfl
  unfold execInput at h ⊢
  rw [hdest, hio]
  cases hd : inputDest s with
  | error e =>
    rw [hd] at h
    obtain rfl := Host.Outcome.next.inj h
    rfl
  | ok d =>
    rw [hd] at h
    cases hr : ioRead s with
    | value v u =>
      rw [hr] at h
      simp only [ReadAnswer.mapState, mapPort_storeWord]
      exact mapPort_complete h
    | exhausted | noAnswer =>
      rw [hr] at h
      obtain rfl := Host.Outcome.next.inj h
      rfl

theorem mapPort_execOutput {m1 : Mode} (hio : ∀ a, ioWrite (s.mapPort g k) a = (ioWrite s a).map (State.mapPort g k))
    (h : execOutput m1 s = .next t) : execOutput m1 (s.mapPort g k) = .next (t.mapPort g k) := by
  have hread : readParam (s.mapPort g k) 1 m1 = readParam s 1 m1 := rfl
  unfold execOutput at h ⊢
  rw [hread]
  cases ha : readParam s 1 m1 with
  | error e =>
    rw [ha] at h
    obtain rfl := Host.Outcome.next.inj h
    rfl
  | ok a =>
    rw [ha] at h
    simp only [hio]
    cases hw : ioWrite s a with
    | none | some u =>
      simp only [hw] at h
      obtain rfl := Host.Outcome.next.inj h
      rfl

/-- An instruction executes alike over another port if the transaction it asks for does (R36, R87). -/
theorem mapPort_exec {i : Instr}
    (hin : ∀ m, i = .input m → ioRead (s.mapPort g k) = (ioRead s).mapState (State.mapPort g k))
    (hout : ∀ m, i = .output m → ∀ a, ioWrite (s.mapPort g k) a = (ioWrite s a).map (State.mapPort g k))
    (h : exec i s = .next t) : exec i (s.mapPort g k) = .next (t.mapPort g k) := by
  cases i with
  | add | multiply | lessThan | equals => exact mapPort_binaryToMemory h
  | jumpIfTrue | jumpIfFalse => exact mapPort_jumpWhen h
  | input m => exact mapPort_execInput (m1 := m) (hin m rfl) h
  | output m => exact mapPort_execOutput (hout m rfl) h
  | halt =>
    obtain rfl := Host.Outcome.next.inj h
    rfl

theorem step_eq_raise {e : Exn} (hr : s.runState = .running) (he : fetchDecode s = .error e) :
    step s = .next (raise s e) := by
  simp [step, hr, he]

/-- A step happens alike over another port if both transactions do (R36, R87). -/
theorem mapPort_step (hin : ioRead (s.mapPort g k) = (ioRead s).mapState (State.mapPort g k))
    (hout : ∀ a, ioWrite (s.mapPort g k) a = (ioWrite s a).map (State.mapPort g k)) (h : step s = .next t) :
    step (s.mapPort g k) = .next (t.mapPort g k) := by
  obtain ⟨hr, _⟩ := step_cases h
  cases hi : fetchDecode s with
  | error e =>
    obtain rfl := Host.Outcome.next.inj ((step_eq_raise hr hi).symm.trans h)
    exact step_eq_raise (s := s.mapPort g k) hr hi
  | ok i =>
    have hexec : exec i s = .next t := step_eq_exec hr hi ▸ h
    exact (step_eq_exec (s := s.mapPort g k) hr hi).trans (mapPort_exec (fun _ _ => hin) (fun _ _ => hout) hexec)

end

/-- A write transaction reads nothing of the source (R87, R90). -/
theorem ioWrite_mapPort_source (g : Source → Source) (s : State) (a : Word) :
    ioWrite (s.mapPort g id) a = (ioWrite s a).map (State.mapPort g id) := by
  have hsink : (s.mapPort g id).sink = s.sink := rfl
  have hqueues : (s.mapPort g id).queues = s.queues := rfl
  unfold ioWrite
  rw [hsink, hqueues]
  cases s.sink with
  | log out => rfl
  | queue q =>
    dsimp only
    cases s.queues[q]? with
    | none => rfl
    | some Q =>
      dsimp only
      cases Q.hasRoom <;> rfl

/-- Settles O48: the source is replaced, and only Input's transaction reads it. -/
theorem onlyInputReadsTheSource : Obligations.OnlyInputReadsTheSource := by
  intro s t i src hi h
  rw [setSource_eq_mapPort, setSource_eq_mapPort]
  exact mapPort_exec (fun m hm => absurd hm (hi m)) (fun _ _ => ioWrite_mapPort_source _ s) h

/-! ## Another record in the log -/

/-- A read transaction reads nothing of the sink (R87, R89). -/
theorem ioRead_mapPort_sink (k : Sink → Sink) (s : State) :
    ioRead (s.mapPort id k) = (ioRead s).mapState (State.mapPort id k) := by
  have hsource : (s.mapPort id k).source = s.source := rfl
  have hqueues : (s.mapPort id k).queues = s.queues := rfl
  unfold ioRead
  rw [hsource, hqueues]
  cases s.source with
  | constant c => rfl
  | list vs => cases vs <;> rfl
  | queue q =>
    dsimp only
    cases s.queues[q]? with
    | none => rfl
    | some Q =>
      dsimp only
      cases Q.items <;> rfl

/-- The sink with the first `n` entries of its log replaced by the record `out'`. -/
def Sink.withRecord (n : Nat) (out' : List Word) : Sink → Sink
  | .log l => .log (out' ++ l.drop n)
  | .queue q => .queue q

theorem withRecord_log_append (out out' ws : List Word) :
    (Sink.log (out ++ ws)).withRecord out.length out' = .log (out' ++ ws) := by
  rw [Sink.withRecord, List.drop_left]

theorem mapPort_withRecord {s : State} {out ws : List Word} (hs : s.sink = .log (out ++ ws)) (out' : List Word) :
    s.mapPort id (Sink.withRecord out.length out') = s.setSink (.log (out' ++ ws)) := by
  unfold State.mapPort
  rw [hs, withRecord_log_append]
  rfl

theorem mapPort_withRecord_of_log {s : State} {out : List Word} (hs : s.sink = .log out) (out' : List Word) :
    s.mapPort id (Sink.withRecord out.length out') = s.setSink (.log out') := by
  simpa only [List.append_nil] using mapPort_withRecord (ws := []) (by rw [hs, List.append_nil]) out'

theorem ioWrite_of_log {s : State} {out : List Word} (hs : s.sink = .log out) (a : Word) :
    ioWrite s a = some ((s.setSink (.log (out ++ [a]))).mirrored a) := by
  unfold ioWrite
  rw [hs]

/-- A write transaction appends the same value to whatever record the log has (R95). -/
theorem ioWrite_mapPort_withRecord {s : State} {out : List Word} (hs : s.sink = .log out) (out' : List Word)
    (a : Word) :
    ioWrite (s.mapPort id (Sink.withRecord out.length out')) a =
      (ioWrite s a).map (State.mapPort id (Sink.withRecord out.length out')) := by
  have hnew : ((s.setSink (.log (out ++ [a]))).mirrored a).mapPort id (Sink.withRecord out.length out') =
      ((s.setSink (.log (out ++ [a]))).mirrored a).setSink (.log (out' ++ [a])) := mapPort_withRecord rfl out'
  rw [mapPort_withRecord_of_log hs, ioWrite_of_log (setSink_sink ..), ioWrite_of_log hs, Option.map_some, hnew]
  rfl

/-- A log only grows, and at its end (R41, R95, R97). -/
theorem step_log_append {s t : State} {out : List Word} (hs : s.sink = .log out) (h : step s = .next t) :
    ∃ ws, t.sink = .log (out ++ ws) := by
  have unchanged : t.sink = s.sink → ∃ ws, t.sink = .log (out ++ ws) := fun heq =>
    ⟨[], by rw [heq, hs, List.append_nil]⟩
  obtain ⟨_, ⟨e, _, rfl⟩ | ⟨i, _, ⟨_, rfl⟩ | hran⟩⟩ := step_cases h
  · exact unchanged rfl
  · exact unchanged rfl
  · cases hran with
    | stores | jumps | falls | halts => exact unchanged rfl
    | inputs _ _ hr =>
      obtain ⟨_, rfl⟩ | ⟨vs, _, rfl⟩ | ⟨q, Q, vs, _, _, _, rfl⟩ := ioRead_value hr <;> exact unchanged rfl
    | @outputs _ _ u a _ hw =>
      obtain rfl := Option.some.inj ((ioWrite_of_log hs a).symm.trans hw)
      exact ⟨[a], rfl⟩

/-- Settles O47: the step happens alike with the record replaced, and the replacement keeps what the step appended. -/
theorem logNeverInfluencesTheRun : Obligations.LogNeverInfluencesTheRun := by
  intro s t out out' hs h
  obtain ⟨ws, hws⟩ := step_log_append hs h
  have halike := mapPort_step (ioRead_mapPort_sink _ s) (ioWrite_mapPort_withRecord hs out') h
  rw [mapPort_withRecord_of_log hs, mapPort_withRecord hws] at halike
  exact ⟨ws, hws, halike⟩

end Sys2Proof.Machine
end

section
/-! PROOFS. Scope: the encoding. Which Words decode to an instruction, which decode error every other Word is, and what
a step makes of each. -/

namespace Sys2Proof

/-! ## The Words of an instruction -/

/-- A negative Word has no digits to decode (R54). -/
theorem decode_negative {w : Int} (h : w < 0) : decode w = .error (.invalidOpcode w) := by
  rw [decode, if_pos h]

/-- A Word decodes to `i` exactly when its operation code and its declared mode digits are those of `i` (R53). -/
theorem decode_ok {w : Int} {i : Instr} :
    decode w = .ok i ↔ 0 ≤ w ∧ w.toNat % 100 = codeOf i.op ∧
      w.toNat / 100 % 10 ^ i.op.paramCount = modesValue i.modes := by
  obtain h0 | h0 := Int.lt_or_le w 0
  · simp [decode_negative h0, h0.not_ge]
  · rw [← opOfCode_eq_some]
    cases ho : opOfCode (w.toNat % 100) with
    | none => simp [decode, h0.not_gt, ho]
    | some o =>
      rw [decode_known h0 ho, decodeOp_ok, Option.some_inj]
      constructor
      · rintro ⟨rfl, hm⟩
        exact ⟨h0, rfl, hm⟩
      · rintro ⟨_, rfl, hm⟩
        exact ⟨rfl, hm⟩

/-- The decoded digits of a Word, two of the code and one of each declared mode, read as one number. -/
theorem decode_ok_iff_mod {w : Int} {i : Instr} :
    decode w = .ok i ↔ 0 ≤ w ∧ w.toNat % 10 ^ (i.op.paramCount + 2) = encodeNat i := by
  have digits : w.toNat % 10 ^ (i.op.paramCount + 2) =
      w.toNat % 100 + 100 * (w.toNat / 100 % 10 ^ i.op.paramCount) := by
    rw [Nat.pow_add', Nat.mod_mul]
  have hcode := codeOf_lt i.op
  rw [decode_ok, digits, encodeNat]
  omega

/-- An encoding has no digit above the last declared mode digit (R51). -/
theorem encodeNat_lt (i : Instr) : encodeNat i < 10 ^ (i.op.paramCount + 2) := by
  have hcode := codeOf_lt i.op
  have hmodes := modesValue_lt i
  rw [encodeNat, Nat.pow_add]
  omega

/-- Settles O3: the decoded digits are the remainder of the Word by `10 ^ (param_count + 2)`, the free ones its
quotient. -/
theorem decodesExactlyWithAnyHigherDigits : Obligations.DecodesExactlyWithAnyHigherDigits := by
  intro w i
  rw [decode_ok_iff_mod]
  constructor
  · rintro ⟨h0, hmod⟩
    refine ⟨w.toNat / 10 ^ (i.op.paramCount + 2), ?_⟩
    calc w = (w.toNat : Int) := (Int.toNat_of_nonneg h0).symm
      _ = (encodeNat i + 10 ^ (i.op.paramCount + 2) * (w.toNat / 10 ^ (i.op.paramCount + 2)) : Nat) := by
        rw [← hmod, Nat.mod_add_div]
  · rintro ⟨k, rfl⟩
    have hnat : (encode i + (10 ^ (i.op.paramCount + 2) * k : Nat)).toNat =
        encodeNat i + 10 ^ (i.op.paramCount + 2) * k := rfl
    rw [hnat, Nat.add_mul_mod_self_left, Nat.mod_eq_of_lt (encodeNat_lt i)]
    exact ⟨Int.natCast_nonneg _, rfl⟩

/-- Settles O2: O3 with no digit above the encoding. -/
theorem decodeOfEncode : Obligations.DecodeOfEncode := fun i =>
  (decodesExactlyWithAnyHigherDigits (encode i) i).2 ⟨0, (Int.add_zero _).symm⟩

/-- Settles O1 by running the decoder on each Word. -/
theorem writtenOutWordsDecode : Obligations.WrittenOutWordsDecode := by
  unfold Obligations.WrittenOutWordsDecode
  decide

/-! ## The mode loop on legal digits, and at the first illegal one -/

/-- The first `n` mode digits of `w` are modes (R56). -/
def LegalModes (w n : Nat) : Prop := ∀ j, 1 ≤ j → j ≤ n → digit (j + 1) w ≤ 1

/-- Parameter `i` is the lowest of the first `n` whose mode digit is no mode (R57, decision D20). -/
structure FirstBadMode (w n i : Nat) : Prop where
  pos : 1 ≤ i
  le : i ≤ n
  bad : 2 ≤ digit (i + 1) w
  below : ∀ j, 1 ≤ j → j < i → digit (j + 1) w ≤ 1

section
variable {w i : Nat}

theorem decodeModes1_legal {mk : Mode → Instr} (h : LegalModes w 1) : ∃ i, decodeModes1 mk w = .ok i := by
  obtain ⟨m1, h1⟩ := decodeMode_legal (h 1 (by omega) (by omega))
  exact ⟨_, decodeModes1_ok.2 ⟨m1, decodeMode_ok.1 h1, rfl⟩⟩

theorem decodeModes2_legal {mk : Mode → Mode → Instr} (h : LegalModes w 2) : ∃ i, decodeModes2 mk w = .ok i := by
  obtain ⟨m1, h1⟩ := decodeMode_legal (h 1 (by omega) (by omega))
  obtain ⟨m2, h2⟩ := decodeMode_legal (h 2 (by omega) (by omega))
  exact ⟨_, decodeModes2_ok.2 ⟨m1, m2, decodeMode_ok.1 h1, decodeMode_ok.1 h2, rfl⟩⟩

theorem decodeModes3_legal {mk : Mode → Mode → Mode → Instr} (h : LegalModes w 3) :
    ∃ i, decodeModes3 mk w = .ok i := by
  obtain ⟨m1, h1⟩ := decodeMode_legal (h 1 (by omega) (by omega))
  obtain ⟨m2, h2⟩ := decodeMode_legal (h 2 (by omega) (by omega))
  obtain ⟨m3, h3⟩ := decodeMode_legal (h 3 (by omega) (by omega))
  exact ⟨_, decodeModes3_ok.2 ⟨m1, m2, m3, decodeMode_ok.1 h1, decodeMode_ok.1 h2, decodeMode_ok.1 h3, rfl⟩⟩

/-- A Word whose declared mode digits are all modes is an instruction of its operation. -/
theorem decodeOp_legal {o : Op} (h : LegalModes w o.paramCount) : ∃ i : Instr, i.op = o ∧ decodeOp o w = .ok i := by
  have hok : ∃ i, decodeOp o w = .ok i := by
    cases o with
    | add | multiply | lessThan | equals => exact decodeModes3_legal h
    | jumpIfTrue | jumpIfFalse => exact decodeModes2_legal h
    | input | output => exact decodeModes1_legal h
    | halt => exact ⟨_, rfl⟩
  obtain ⟨i, hi⟩ := hok
  exact ⟨i, (decodeOp_ok.1 hi).1, hi⟩

/-- A check that fails ends the loop. -/
theorem decodeMode_bind_illegal {f : Mode → Except DecodeError Instr} (h : 2 ≤ digit (i + 1) w) :
    decodeMode w i >>= f = .error (.invalidAddressingMode w i) := by
  rw [decodeMode_illegal h]
  rfl

/-- A check that succeeds leaves the answer to the checks behind it. -/
theorem decodeMode_bind_legal {f : Mode → Except DecodeError Instr} {e : DecodeError} (h : digit (i + 1) w ≤ 1)
    (hf : ∀ m, f m = .error e) : decodeMode w i >>= f = .error e := by
  obtain ⟨m, hm⟩ := decodeMode_legal h
  rw [hm]
  exact hf m

theorem decodeModes1_firstBad {mk : Mode → Instr} (h : FirstBadMode w 1 i) :
    decodeModes1 mk w = .error (.invalidAddressingMode w i) := by
  obtain rfl : i = 1 := Nat.le_antisymm h.le h.pos
  exact decodeMode_bind_illegal h.bad

theorem decodeModes2_firstBad {mk : Mode → Mode → Instr} (h : FirstBadMode w 2 i) :
    decodeModes2 mk w = .error (.invalidAddressingMode w i) := by
  obtain ⟨pos, le, bad, below⟩ := h
  obtain rfl | rfl : i = 1 ∨ i = 2 := by omega
  · exact decodeMode_bind_illegal bad
  · exact decodeMode_bind_legal (below 1 (by omega) (by omega)) fun _ => decodeMode_bind_illegal bad

theorem decodeModes3_firstBad {mk : Mode → Mode → Mode → Instr} (h : FirstBadMode w 3 i) :
    decodeModes3 mk w = .error (.invalidAddressingMode w i) := by
  obtain ⟨pos, le, bad, below⟩ := h
  obtain rfl | rfl | rfl : i = 1 ∨ i = 2 ∨ i = 3 := by omega
  · exact decodeMode_bind_illegal bad
  · exact decodeMode_bind_legal (below 1 (by omega) (by omega)) fun _ => decodeMode_bind_illegal bad
  · exact decodeMode_bind_legal (below 1 (by omega) (by omega)) fun _ =>
      decodeMode_bind_legal (below 2 (by omega) (by omega)) fun _ => decodeMode_bind_illegal bad

/-- A Word with a bad declared mode digit is refused at the lowest one. -/
theorem decodeOp_firstBad {o : Op} (h : FirstBadMode w o.paramCount i) :
    decodeOp o w = .error (.invalidAddressingMode w i) := by
  cases o with
  | add | multiply | lessThan | equals => exact decodeModes3_firstBad h
  | jumpIfTrue | jumpIfFalse => exact decodeModes2_firstBad h
  | input | output => exact decodeModes1_firstBad h
  | halt => exact absurd (h.pos.trans h.le) (by decide)

end

/-- `Decode` at the lowest bad mode digit of a known operation (R53, R57). -/
theorem decode_firstBad {w : Int} {o : Op} {i : Nat} (h0 : 0 ≤ w) (ho : opOfCode (w.toNat % 100) = some o)
    (h : FirstBadMode w.toNat o.paramCount i) : decode w = .error (.invalidAddressingMode w i) := by
  rw [decode_known h0 ho, decodeOp_firstBad h, Int.toNat_of_nonneg h0]

/-- Settles O4: a negative Word, an unknown code, and for a known code the mode loop on legal digits and at the first
illegal one. -/
theorem everyWordIsLegalOrOneDecodeError : Obligations.EveryWordIsLegalOrOneDecodeError := by
  intro w
  refine ⟨decode_negative, decode_unknown, fun h0 o ho => ⟨fun legal => ?_, fun i pos le bad below => ?_⟩⟩
  · rw [decode_known h0 ho]
    exact decodeOp_legal legal
  · exact decode_firstBad h0 ho ⟨pos, le, bad, below⟩

end Sys2Proof

namespace Sys2Proof.Machine

/-! ## The step on each kind of Word -/

/-- A Running machine takes the exception of its instruction word's decode error (R121, R122, R127). -/
theorem step_of_decode_error {s : State} {w : Word} {e : DecodeError} (hr : s.runState = .running)
    (hw : s.param 0 = some w) (he : decode w = .error e) : step s = .next (raise s (exnOfDecodeError e)) :=
  step_eq_raise hr (fetchDecode_error.2 (.inr ⟨w, e, hw, he, rfl⟩))

/-- Settles O7: the decoder stops at the lowest bad digit, and no parameter is fetched. -/
theorem badModeDigitRaises : Obligations.BadModeDigitRaises := fun _ _ _ _ hr hw h0 ho pos le bad below =>
  step_of_decode_error hr hw (decode_firstBad h0 ho ⟨pos, le, bad, below⟩)

/-- Settles O5: an operation code 0 or 9 to 98 is not in the table of R52. -/
theorem unknownOperationCodeRaises : Obligations.UnknownOperationCodeRaises := by
  intro s w hr hw h0 hcode
  have unknown : w.toNat % 100 ∉ [1, 2, 3, 4, 5, 6, 7, 8, 99] := by
    simp only [List.mem_cons, List.not_mem_nil, or_false]
    omega
  exact step_of_decode_error hr hw (decode_unknown h0 unknown)

/-- Settles O6. -/
theorem negativeInstructionWordRaises : Obligations.NegativeInstructionWordRaises := fun _ _ hr hw hneg =>
  step_of_decode_error hr hw (decode_negative hneg)

/-- Settles O12: a fetch or decode error is an exception taken, and every instruction answers a next state. -/
theorem runningMachineAlwaysAnswers : Obligations.RunningMachineAlwaysAnswers := by
  intro s hr
  cases hi : fetchDecode s with
  | error e => exact ⟨_, step_eq_raise hr hi⟩
  | ok i => exact step_eq_exec hr hi ▸ exec_next i s

/-- Settles O8: no execution names the mode of its write-address parameter. -/
theorem destinationModeNeverApplied : Obligations.DestinationModeNeverApplied := fun _ _ _ _ _ =>
  ⟨rfl, rfl, rfl, rfl, rfl⟩

end Sys2Proof.Machine
end

section
/-! PROOFS. Scope: the cycle. Which instruction a step runs, when there is no step, and, in a system, that the order in
which interpreters take their steps does not show. -/

namespace Sys2Proof.Machine

/-! ## What one enabled step does to the queues -/

/-- What a port does to the queue it names: remove the head (R94), or append (R96). -/
inductive QueueOp where
  | take (v : Word)
  | give (v : Word)

/-- The queue after the operation, where the queue offers that head or has room (R94, R96). -/
inductive QueueOp.Turns : QueueOp → Queue → Queue → Prop where
  | take {Q : Queue} {v : Word} {vs : List Word} (hi : Q.items = v :: vs) : Turns (.take v) Q { Q with items := vs }
  | give {Q : Queue} {v : Word} (hr : Q.hasRoom = true) : Turns (.give v) Q (Q.push v)

/-- The end of queue `q` that the operation needs is joined to the interpreter's port (R137). -/
def QueueOp.WiredTo (c : Interp) (q : Nat) : QueueOp → Prop
  | .take _ => c.source = .queue q
  | .give _ => c.sink = .queue q

/-- One step's use of the queues: of none, or one operation on one of them (R40, R136). -/
inductive Uses : Option (Nat × QueueOp) → List Queue → List Queue → Prop where
  | idle {qs : List Queue} : Uses none qs qs
  | one {qs : List Queue} {q : Nat} {op : QueueOp} {Q Q' : Queue} (hQ : qs[q]? = some Q) (ht : op.Turns Q Q') :
      Uses (some (q, op)) qs (qs.set q Q')

/-- An enabled step uses the queues in one way, through its own port, and happens alike wherever that use is
possible. -/
theorem step_uses {s t : State} (he : s.enabled = true) (h : step s = .next t) :
    ∃ use, (∀ p ∈ use, p.2.WiredTo s.toInterp p.1) ∧ Uses use s.queues t.queues ∧
      ∀ qs qs', Uses use qs qs' → StepsAlike s t qs qs' := by
  obtain ⟨hq, alike⟩ | ⟨q, Q, v, vs, hsrc, hQ, hi, hq, alike⟩ | ⟨q, Q, v, hsnk, hQ, hroom, hq, alike⟩ :=
    step_locality he h
  · refine ⟨none, nofun, hq ▸ .idle, ?_⟩
    rintro qs _ ⟨⟩
    exact alike qs
  · refine ⟨some (q, .take v), ?_, hq ▸ .one hQ (.take hi), ?_⟩
    · rintro _ ⟨⟩
      exact hsrc
    · rintro qs _ (_ | ⟨hQ', ⟨hi'⟩⟩)
      exact alike qs _ _ hQ' hi'
  · refine ⟨some (q, .give v), ?_, hq ▸ .one hQ (.give hroom), ?_⟩
    · rintro _ ⟨⟩
      exact hsnk
    · rintro qs _ (_ | ⟨hQ', _ | hroom'⟩)
      exact alike qs _ hQ' hroom'

/-! ## Two uses commute -/

/-- Two interpreters share no end of a queue: no queue has both as readers, or both as writers (R137). -/
structure Apart (c d : Interp) : Prop where
  source_ne : ∀ q, c.source = .queue q → d.source ≠ .queue q
  sink_ne : ∀ q, c.sink = .queue q → d.sink ≠ .queue q

theorem System.Inv.apart {y : System} {i j : Nat} {c d : Interp} (hy : y.Inv) (hij : i ≠ j)
    (hc : y.insts[i]? = some c) (hd : y.insts[j]? = some d) : Apart c d where
  source_ne q hq hq' :=
    hij (hy.one_reader i j q (by simp [System.sourceAt, hc, hq]) (by simp [System.sourceAt, hd, hq']))
  sink_ne q hq hq' :=
    hij (hy.one_writer i j q (by simp [System.sinkAt, hc, hq]) (by simp [System.sinkAt, hd, hq']))

/-- Taking the head leaves room, and appending leaves the head: a queue's reader and its writer do not see which of them
came first. -/
theorem take_give_commute {Q Q1 Q2 : Queue} {v w : Word} (h1 : QueueOp.Turns (.take v) Q Q1)
    (h2 : QueueOp.Turns (.give w) Q Q2) : ∃ Q', QueueOp.Turns (.give w) Q1 Q' ∧ QueueOp.Turns (.take v) Q2 Q' := by
  obtain @⟨_, _, vs, hi⟩ := h1
  obtain _ | hroom := h2
  have hroom' : ({ Q with items := vs } : Queue).hasRoom = true := by
    refine hasRoom_iff.2 fun c hc => ?_
    have hlt := hasRoom_iff.1 hroom c hc
    simp only [hi, List.length_cons] at hlt
    exact Nat.lt_of_succ_lt hlt
  exact ⟨_, .give hroom', .take (by simp [hi])⟩

section
variable {c d : Interp} (hcd : Apart c d)
include hcd

/-- On one queue, two interpreters that share no end of it are its reader and its writer. -/
theorem turns_commute {q : Nat} {op op' : QueueOp} {Q Q1 Q2 : Queue} (hop : op.WiredTo c q) (hop' : op'.WiredTo d q)
    (h1 : op.Turns Q Q1) (h2 : op'.Turns Q Q2) : ∃ Q', op'.Turns Q1 Q' ∧ op.Turns Q2 Q' := by
  cases op with
  | take v =>
    cases op' with
    | take w => exact absurd hop' (hcd.source_ne q hop)
    | give w => exact take_give_commute h1 h2
  | give v =>
    cases op' with
    | take w => exact (take_give_commute h2 h1).imp fun _ => And.symm
    | give w => exact absurd hop' (hcd.sink_ne q hop)

/-- Two uses of the same queues commute: they are on two queues, or on the two ends of one. -/
theorem uses_commute {use use' : Option (Nat × QueueOp)} {qs qs1 qs2 : List Queue}
    (hc : ∀ p ∈ use, p.2.WiredTo c p.1) (hd : ∀ p ∈ use', p.2.WiredTo d p.1)
    (h1 : Uses use qs qs1) (h2 : Uses use' qs qs2) : ∃ qs', Uses use' qs1 qs' ∧ Uses use qs2 qs' := by
  cases h1 with
  | idle => exact ⟨qs2, h2, .idle⟩
  | @one _ q op Q Q1 hQ ht1 =>
    cases h2 with
    | idle => exact ⟨_, .idle, .one hQ ht1⟩
    | @one _ p op' P Q2 hP ht2 =>
      obtain rfl | hqp := eq_or_ne q p
      · obtain rfl : Q = P := Option.some.inj (hQ.symm.trans hP)
        obtain ⟨Q', ht', ht⟩ := turns_commute hcd (hc (q, op) rfl) (hd (q, op') rfl) ht1 ht2
        have on_q {op : QueueOp} {R : Queue} (hR : op.Turns R Q') :
            Uses (some (q, op)) (qs.set q R) (qs.set q Q') := by
          rw [← List.set_set (a := R) (b := Q')]
          exact .one (List.getElem?_set_self (List.getElem?_eq_some_iff.1 hQ).1) hR
        exact ⟨qs.set q Q', on_q ht', on_q ht⟩
      · refine ⟨(qs.set q Q1).set p Q2, .one ((List.getElem?_set_ne hqp).trans hP) ht2, ?_⟩
        rw [List.set_comm _ _ hqp]
        exact .one ((List.getElem?_set_ne hqp.symm).trans hQ) ht1

end

/-! ## Steps of two interpreters commute -/

section
variable {y : System} {i j : Nat} (hij : i ≠ j)
include hij

/-- After interpreter `i` has become `t`, interpreter `j` takes the step that happens alike over the queues of `t`. -/
theorem stepAt_put {s s' t : State} {qs : List Queue} (hv : y.view j = some s) (h : StepsAlike s s' t.queues qs) :
    (y.put i t).stepAt j = some ((y.put i t).put j (s'.withQueues qs)) := by
  have hview : (y.put i t).view j = some (s.withQueues t.queues) :=
    view_iff.2 ⟨(List.getElem?_set_ne hij).trans (view_iff.1 hv).1, rfl⟩
  exact stepAt_iff.2 ⟨_, _, hview, h.1, h.2, rfl⟩

/-- The order in which two interpreters are put back does not show, when the queues end the same. -/
theorem put_put_comm (t t' : State) (qs : List Queue) :
    (y.put i t).put j (t'.withQueues qs) = (y.put j t').put i (t.withQueues qs) :=
  congrArg (System.mk · qs) (List.set_comm _ _ hij)

end

/-- Settles O53: each step uses the queues through its own port, the two uses commute, and each step happens alike after
the other. -/
theorem stepsOfDifferentInterpretersCommute : Obligations.StepsOfDifferentInterpretersCommute := by
  intro y y1 y2 i j hy hij h1 h2
  obtain ⟨s1, t1, hv1, he1, hs1, rfl⟩ := stepAt_iff.1 h1
  obtain ⟨s2, t2, hv2, he2, hs2, rfl⟩ := stepAt_iff.1 h2
  obtain ⟨hi, hq1⟩ := view_iff.1 hv1
  obtain ⟨hj, hq2⟩ := view_iff.1 hv2
  obtain ⟨use1, port1, huse1, alike1⟩ := step_uses he1 hs1
  obtain ⟨use2, port2, huse2, alike2⟩ := step_uses he2 hs2
  rw [hq1] at huse1
  rw [hq2] at huse2
  obtain ⟨qs, after1, after2⟩ := uses_commute (hy.apart hij hi hj) port1 port2 huse1 huse2
  refine ⟨_, stepAt_put hij hv2 (alike2 _ qs after1), ?_⟩
  rw [put_put_comm hij]
  exact stepAt_put hij.symm hv1 (alike1 _ qs after2)

/-! ## Schedules -/

theorem System.Inv.stepAt {y z : System} {i : Nat} (hy : y.Inv) (h : y.stepAt i = some z) : z.Inv :=
  movesKeepTheSystemInvariant y z (.step i) hy h

/-- In a quiet system no interpreter has a step to take (R139). -/
theorem stepAt_ne_some_of_quiet {y z : System} (hq : y.quiet = true) (i : Nat) : y.stepAt i ≠ some z := by
  intro h
  obtain ⟨s, _, hv, he, _⟩ := stepAt_iff.1 h
  have hlt : i < y.insts.length := (List.getElem?_eq_some_iff.1 (view_iff.1 hv).1).1
  have hnot := List.all_eq_true.1 hq i (List.mem_range.2 hlt)
  simp [System.enabledAt, hv, he] at hnot

@[simp] theorem run_nil {y z : System} : y.run [] = some z ↔ y = z := Option.some_inj

@[simp] theorem run_step_cons {y z : System} {i : Nat} {ms : List Move} :
    y.run (.step i :: ms) = some z ↔ ∃ y1, y.stepAt i = some y1 ∧ y1.run ms = some z := by
  simp only [System.run, System.move]
  cases y.stepAt i <;> simp

/-- An enabled step can be moved to the front of any schedule that ends quiet: that schedule takes it sooner or later,
and it commutes with all before it. -/
theorem run_after_stepAt {y y' z : System} {j : Nat} {is : List Nat} (hy : y.Inv) (hj : y.stepAt j = some y')
    (hrun : y.run (is.map .step) = some z) (hq : z.quiet = true) :
    ∃ is' : List Nat, y'.run (is'.map .step) = some z ∧ is'.length + 1 = is.length := by
  induction is generalizing y y' with
  | nil =>
    obtain rfl := run_nil.1 hrun
    exact absurd hj (stepAt_ne_some_of_quiet hq j)
  | cons i is ih =>
    obtain ⟨y1, hi, hrest⟩ := run_step_cons.1 hrun
    obtain rfl | hij := eq_or_ne i j
    · obtain rfl : y1 = y' := Option.some.inj (hi.symm.trans hj)
      exact ⟨is, hrest, rfl⟩
    · obtain ⟨w, hw1, hw2⟩ := stepsOfDifferentInterpretersCommute y y1 y' i j hy hij hi hj
      obtain ⟨is', hrun', hlen⟩ := ih (hy.stepAt hi) hw1 hrest
      exact ⟨i :: is', run_step_cons.2 ⟨w, hw2, hrun'⟩, congrArg (· + 1) hlen⟩

/-- Settles O54, by induction on the second schedule: its first step can be moved to the front of the first one. -/
theorem everySchedulesEndIsTheSame : Obligations.EverySchedulesEndIsTheSame := by
  intro y z1 z2 is1 is2 hy h1 h2 hq1 hq2
  induction is2 generalizing y is1 with
  | nil =>
    obtain rfl := run_nil.1 h2
    cases is1 with
    | nil => exact ⟨(run_nil.1 h1).symm, rfl⟩
    | cons i is =>
      obtain ⟨y1, hi, _⟩ := run_step_cons.1 h1
      exact absurd hi (stepAt_ne_some_of_quiet hq2 i)
  | cons j is ih =>
    obtain ⟨y', hj, hrest⟩ := run_step_cons.1 h2
    obtain ⟨is1', hrun, hlen⟩ := run_after_stepAt hy hj h1 hq1
    obtain ⟨hz, hlen'⟩ := ih y' is1' (hy.stepAt hj) hrun hrest
    refine ⟨hz, ?_⟩
    rw [← hlen, hlen', List.length_cons]

/-! ## The step of one interpreter -/

/-- Settles O9. -/
theorem stepRunsTheDecodedInstruction : Obligations.StepRunsTheDecodedInstruction := fun _ w _ hr hw hd =>
  step_eq_exec hr (fetchDecode_ok.2 ⟨w, hw, hd⟩)

/-- Settles O10: there is no Word at `pc`, and that is the fetch's exception. -/
theorem fetchPastTheEndRaises : Obligations.FetchPastTheEndRaises := fun _ hr hlen =>
  step_eq_raise hr (fetchDecode_error.2 (.inl ⟨List.getElem?_eq_none hlen, rfl⟩))

/-- Settles O11: an enabled step and a step that answers both begin in Running. -/
theorem endedMachineTakesNoStep : Obligations.EndedMachineTakesNoStep := by
  intro s hr
  have disabled : s.enabled = false := Bool.eq_false_iff.2 fun he => hr (enabled_iff.1 he).1
  refine ⟨disabled, fun t h => hr (step_cases h).1, fun y i hv => ?_⟩
  rw [Option.eq_none_iff_forall_ne_some]
  intro z h
  obtain ⟨s', _, hv', he, _⟩ := stepAt_iff.1 h
  obtain rfl : s = s' := Option.some.inj (hv.symm.trans hv')
  simp [disabled] at he

/-! ## Placing an instruction -/

/-- The `k`-th placed Word is read back at `a + k`, whether or not memory had to grow for it (R154). -/
theorem placeWords_getElem? {m : Memory} {a k : Nat} {ws : List Word} (hk : k < ws.length) :
    (placeWords m a ws)[a + k]? = ws[k]? := by
  have hfront : (m.take a ++ List.replicate (a - m.length) 0).length = a := by
    simp only [List.length_append, List.length_take, List.length_replicate]
    omega
  rw [placeWords, List.append_assoc, List.getElem?_append_right (by omega), hfront, Nat.add_sub_cancel_left,
    List.getElem?_append_left hk]

/-- After `withFetchWord` the four Words from `pc` on are the placed one and three zeros. -/
theorem withFetchWord_param (s : State) (nbits w : Nat) {k : Nat} (hk : k < 4) :
    (s.withFetchWord nbits w).param k = [(w : Word), 0, 0, 0][k]? :=
  placeWords_getElem? hk

theorem decodeTableWord_eq_some {nbits w : Nat} {i : Instr} :
    decodeTableWord nbits w = some i ↔ decode w = .ok i := by
  unfold decodeTableWord
  cases decode w <;> simp

/-- Settles O57: the Words at `pc` are the placed ones, and the machine is Running. -/
theorem placedWordRunsNext : Obligations.PlacedWordRunsNext := by
  intro s nbits w i hdec
  have param := fun k => withFetchWord_param s nbits w (k := k)
  have runs := stepRunsTheDecodedInstruction _ w i (withFetchWord_runState s nbits w) (param 0 (by decide))
    (decodeTableWord_eq_some.1 hdec)
  exact ⟨runs, param 1 (by decide), param 2 (by decide), param 3 (by decide)⟩

end Sys2Proof.Machine
end

section
/-! PROOFS. Scope: the format F2R1W operations. With what Add and Multiply complete, where the four memory operations
trap, and why the unbounded Word never overflows. -/

namespace Sys2Proof.Machine

/-! ## Completion with the exact result -/

/-- Settles O21: a representable sum is the result, and the destination takes it. -/
theorem addCompletes : Obligations.AddCompletes := fun s _ _ _ _ _ _ ha hb hd h0 hlt hfit =>
  binaryToMemory_completes (compute := fun a b : Int => exactResult s.wordBits (a + b)) ha hb hd
    (exactResult_ok.2 ⟨hfit, rfl⟩) (validAddr_iff.2 ⟨h0, hlt⟩)

/-- Settles O22: a representable product is the result, and the destination takes it. -/
theorem multiplyCompletes : Obligations.MultiplyCompletes := fun s _ _ _ _ _ _ ha hb hd h0 hlt hfit =>
  binaryToMemory_completes (compute := fun a b : Int => exactResult s.wordBits (a * b)) ha hb hd
    (exactResult_ok.2 ⟨hfit, rfl⟩) (validAddr_iff.2 ⟨h0, hlt⟩)

/-! ## The memory exceptions, in the order of R126 -/

/-- A read parameter outside memory raises at its own address (R71, R123). -/
theorem readParam_of_param_none {s : State} {k : Nat} {m : Mode} (h : s.param k = none) :
    readParam s k m = .error (outOfBounds (s.pc + k) .fetch) :=
  readParam_error.2 (.inl ⟨h, rfl⟩)

/-- A Position parameter that names no cell raises at the address it names (R72, R123). -/
theorem readParam_of_cell_none {s : State} {k : Nat} {m : Mode} {p : Word} (hp : s.param k = some p)
    (hm : m = .position) (hc : cell s.mem p = none) : readParam s k m = .error (outOfBounds p .read) :=
  readParam_error.2 (.inr ⟨p, hp, hm, hc, rfl⟩)

section
variable {compute : Word → Word → Except Exn Word} {m1 m2 : Mode} {s : State} {a b d v : Word} {e : Exn}

/-- An exception of parameter 1 comes before everything else. -/
theorem binaryToMemory_raises_first (h1 : readParam s 1 m1 = .error e) :
    binaryToMemory compute m1 m2 s = .next (raise s e) := by
  simp [binaryToMemory, bind, Except.bind, h1]

/-- An exception of parameter 2 comes once parameter 1 has its value. -/
theorem binaryToMemory_raises_second (ha : s.operand 1 m1 = some a) (h2 : readParam s 2 m2 = .error e) :
    binaryToMemory compute m1 m2 s = .next (raise s e) := by
  simp [binaryToMemory, bind, Except.bind, readParam_ok.2 ha, h2]

/-- A missing parameter 3 raises once both operands have their values, before anything is computed. -/
theorem binaryToMemory_raises_third (ha : s.operand 1 m1 = some a) (hb : s.operand 2 m2 = some b)
    (h3 : writeParam s 3 = .error e) : binaryToMemory compute m1 m2 s = .next (raise s e) := by
  simp [binaryToMemory, bind, Except.bind, readParam_ok.2 ha, readParam_ok.2 hb, h3]

/-- An invalid destination raises last, once the result exists (R126 item 6). -/
theorem binaryToMemory_raises_store (ha : s.operand 1 m1 = some a) (hb : s.operand 2 m2 = some b)
    (hd : s.param 3 = some d) (hc : compute a b = .ok v) (hv : validAddr s.mem d = false) :
    binaryToMemory compute m1 m2 s = .next (raise s (outOfBounds d .write)) := by
  simp [binaryToMemory, bind, Except.bind, readParam_ok.2 ha, readParam_ok.2 hb, writeParam_ok.2 hd, hc,
    storeWord_error.2 ⟨hv, rfl⟩]

end

/-- The four memory operations share one execute phase, and only the result of Add and of Multiply can fail to exist
(R75, R80, R107). -/
theorem exec_eq_binaryToMemory {i : Instr} {m1 m2 m3 : Mode} (s : State)
    (hi : i = .add m1 m2 m3 ∨ i = .multiply m1 m2 m3 ∨ i = .lessThan m1 m2 m3 ∨ i = .equals m1 m2 m3) :
    ∃ compute, exec i s = binaryToMemory compute m1 m2 s ∧ ∀ a b : Int,
      (i = .add m1 m2 m3 → fitsWord s.wordBits (a + b) = true) →
      (i = .multiply m1 m2 m3 → fitsWord s.wordBits (a * b) = true) → ∃ v, compute a b = .ok v := by
  obtain rfl | rfl | rfl | rfl := hi
  · exact ⟨_, rfl, fun a b hadd _ => ⟨a + b, exactResult_ok.2 ⟨hadd rfl, rfl⟩⟩⟩
  · exact ⟨_, rfl, fun a b _ hmul => ⟨a * b, exactResult_ok.2 ⟨hmul rfl, rfl⟩⟩⟩
  · exact ⟨_, rfl, fun a b _ _ => ⟨_, rfl⟩⟩
  · exact ⟨_, rfl, fun a b _ _ => ⟨_, rfl⟩⟩

/-- Settles O35: one clause for each place where the shared execute phase can raise `MemoryOutOfBounds`. -/
theorem memoryOperationTraps : Obligations.MemoryOperationTraps := by
  intro s m1 m2 m3 i hi
  obtain ⟨compute, hexec, hresult⟩ := exec_eq_binaryToMemory s hi
  rw [hexec]
  refine ⟨?fetch1, ?load1, ?fetch2, ?load2, ?fetch3, ?store⟩
  case fetch1 => exact fun h => binaryToMemory_raises_first (readParam_of_param_none h)
  case load1 => exact fun p hp hm hc => binaryToMemory_raises_first (readParam_of_cell_none hp hm hc)
  case fetch2 => exact fun a ha h => binaryToMemory_raises_second ha (readParam_of_param_none h)
  case load2 => exact fun a p ha hp hm hc => binaryToMemory_raises_second ha (readParam_of_cell_none hp hm hc)
  case fetch3 => exact fun a b ha hb h => binaryToMemory_raises_third ha hb (writeParam_error.2 ⟨h, rfl⟩)
  case store =>
    intro a b d ha hb hd hc hadd hmul
    obtain ⟨v, hv⟩ := hresult a b hadd hmul
    exact binaryToMemory_raises_store ha hb hd hv (cell_eq_none.1 hc)

/-! ## The unbounded Word -/

theorem ioRead_faultCause {s u : State} {v : Word} (h : ioRead s = .value v u) : u.faultCause = s.faultCause := by
  obtain ⟨_, rfl⟩ | ⟨vs, _, rfl⟩ | ⟨q, Q, vs, _, _, _, rfl⟩ := ioRead_value h <;> rfl

theorem ioWrite_faultCause {s u : State} {v : Word} (h : ioWrite s v = some u) : u.faultCause = s.faultCause := by
  obtain ⟨out, _, rfl⟩ | ⟨q, Q, _, _, _, rfl⟩ := ioWrite_some h <;> rfl

/-- An instruction that completes records no fault (R15). -/
theorem Ran.faultCause {i : Instr} {s t : State} (h : Ran i s t) : t.faultCause = s.faultCause := by
  cases h with
  | inputs _ _ hr => exact (stored_faultCause ..).trans (ioRead_faultCause hr)
  | outputs _ hw => exact (setPc_faultCause ..).trans (ioWrite_faultCause hw)
  | stores | jumps | falls | halts => rfl

/-- R120's table has `ArithmeticOverflow` for a finite Word only (R125). -/
theorem Recorded.kind_ne_arithmeticOverflow {s : State} {e : Exn} (he : Recorded s e) (hw : s.wordBits = none) :
    e.kind ≠ .arithmeticOverflow := by
  intro hk
  rw [Recorded, hw, hk] at he
  cases hinfo : e.info <;> simp [hinfo, faultRecordOk] at he

/-- Settles O37: only an exception changes the fault cause, and none of the unbounded Word is an overflow. -/
theorem unboundedWordNeverOverflows : Obligations.UnboundedWordNeverOverflows := by
  intro s t hw h ht
  obtain ⟨_, ⟨e, he, rfl⟩ | ⟨i, _, ⟨_, rfl⟩ | hran⟩⟩ := step_cases h
  · exact absurd (Option.some.inj ht) (he.kind_ne_arithmeticOverflow hw)
  · exact ht
  · exact hran.faultCause.symm.trans ht

end Sys2Proof.Machine
end

section
/-! PROOFS. Scope: Input and Output. What each source answers and when each sink accepts, how the two instructions end
(a fault, a wait, a completion), and what each leaves unchanged. -/

namespace Sys2Proof.Machine

/-! ## What each source answers -/

/-- Settles O44: the constant source answers the state it was asked in. -/
theorem constantSourceAnswers : Obligations.ConstantSourceAnswers := by
  intro s c hs
  rw [ioRead, hs]

theorem ioRead_of_list_cons {s : State} {v : Word} {vs : List Word} (hs : s.source = .list (v :: vs)) :
    ioRead s = .value v (s.setSource (.list vs)) := by
  rw [ioRead, hs]

theorem ioRead_of_queue_cons {s : State} {q : Nat} {Q : Queue} {v : Word} {vs : List Word} (hs : s.source = .queue q)
    (hQ : s.queues[q]? = some Q) (hi : Q.items = v :: vs) :
    ioRead s = .value v (s.setQueue q { Q with items := vs }) := by
  simp only [ioRead, hs, hQ, hi]

theorem ioRead_of_queue_nil {s : State} {q : Nat} {Q : Queue} (hs : s.source = .queue q)
    (hQ : s.queues[q]? = some Q) (hi : Q.items = []) : ioRead s = .noAnswer := by
  simp only [ioRead, hs, hQ, hi]

/-- Settles O46: a queue has a head or is empty, and only an empty list is exhausted. -/
theorem queueSourceAnswers : Obligations.QueueSourceAnswers := by
  refine fun s q Q hs hQ => ⟨fun v vs => ioRead_of_queue_cons hs hQ, ioRead_of_queue_nil hs hQ, fun hex => ?_⟩
  have hlist : s.source = .list [] := ioRead_exhausted.1 hex
  simp [hs] at hlist

/-! ## When each sink accepts (a log: `ioWrite_of_log`) -/

theorem ioWrite_of_room {s : State} {q : Nat} {Q : Queue} (hs : s.sink = .queue q) (hQ : s.queues[q]? = some Q)
    (hroom : Q.hasRoom = true) (a : Word) : ioWrite s a = some ((s.setQueue q (Q.push a)).mirrored a) := by
  simp only [ioWrite, hs, hQ, hroom, if_true]

theorem ioWrite_of_full {s : State} {q : Nat} {Q : Queue} (hs : s.sink = .queue q) (hQ : s.queues[q]? = some Q)
    (hfull : Q.hasRoom = false) (a : Word) : ioWrite s a = none := by
  simp [ioWrite, hs, hQ, hfull]

/-- A bounded queue that holds its capacity has no room (R96). -/
theorem hasRoom_eq_false {Q : Queue} {c : Nat} (hc : Q.capacity = some c) (hle : c ≤ Q.items.length) :
    Q.hasRoom = false :=
  Bool.eq_false_iff.2 fun hroom => absurd (hasRoom_iff.1 hroom c hc) (Nat.not_lt.2 hle)

/-! ## How Input and Output end -/

section
variable {s u : State} {m1 : Mode} {a d v : Word} {e : Exn}

/-- Input's destination is good when its parameter names a cell (R73, R85). -/
theorem inputDest_of_cell (hd : s.param 1 = some d) (hc : (cell s.mem d).isSome = true) : inputDest s = .ok d :=
  inputDest_ok.2 ⟨hd, cell_isSome.symm.trans hc⟩

/-- An exception of the destination comes before the port is asked (R85, decision D11). -/
theorem exec_input_raises (h : inputDest s = .error e) : exec (.input m1) s = .next (raise s e) := by
  simp only [exec, execInput, h]

theorem exec_input_exhausted (hd : inputDest s = .ok d) (hs : s.source = .list []) :
    exec (.input m1) s = .next (raise s inputExhausted) := by
  simp only [exec, execInput, hd, ioRead_exhausted.2 hs]

/-- An answered Input stores the value in the state the transaction left, which has the same memory (R85, R89). -/
theorem exec_input_answered (hd : inputDest s = .ok d) (hr : ioRead s = .value v u) :
    exec (.input m1) s = .next (u.stored d v 2) := by
  obtain ⟨hmem, _⟩ := ioRead_frame hr
  obtain ⟨_, hv⟩ := inputDest_ok.1 hd
  simp only [exec, execInput, hd, hr, storeWord_ok.2 ⟨hmem ▸ hv, rfl⟩, complete_ok]

theorem held_input (hd : inputDest s = .ok d) (hr : ioRead s = .noAnswer) : held (.input m1) s = true := by
  simp only [held, inputHeld, hd, hr]

/-- An exception of the operand comes before the port is reached (R86). -/
theorem exec_output_raises (h : readParam s 1 m1 = .error e) : exec (.output m1) s = .next (raise s e) := by
  simp only [exec, execOutput, h]

theorem exec_output_accepted (ha : s.operand 1 m1 = some a) (hw : ioWrite s a = some u) :
    exec (.output m1) s = .next (u.setPc (s.pc + 2)) := by
  simp only [exec, execOutput, readParam_ok.2 ha, hw]

theorem held_output (ha : s.operand 1 m1 = some a) (hw : ioWrite s a = none) : held (.output m1) s = true := by
  simp only [held, outputHeld, readParam_ok.2 ha, hw, Option.isNone_none]

end

/-- Settles O26: one clause for each source, by what it answers. -/
theorem inputCompletes : Obligations.InputCompletes := by
  intro s m1 d v hd h0 hlt
  have hdest : inputDest s = .ok d := inputDest_ok.2 ⟨hd, validAddr_iff.2 ⟨h0, hlt⟩⟩
  refine ⟨fun hs => ?constant, fun vs hs => ?list, fun q Q vs hs hQ hi => ?queue⟩
  case constant => exact exec_input_answered hdest (constantSourceAnswers s v hs)
  case list => exact exec_input_answered hdest (ioRead_of_list_cons hs)
  case queue => exact exec_input_answered hdest (ioRead_of_queue_cons hs hQ hi)

/-- Settles O27: a log accepts at once, a queue when it has room. -/
theorem outputCompletes : Obligations.OutputCompletes := by
  refine fun s m1 a ha => ⟨fun out hs => ?log, fun q Q hs hQ hcap => ?queue⟩
  case log => exact exec_output_accepted ha (ioWrite_of_log hs a)
  case queue =>
    have hroom : Q.hasRoom = true := by
      rw [hasRoom_iff]
      obtain hnone | ⟨c, hc, hlt⟩ := hcap
      · simp [hnone]
      · simpa [hc] using hlt
    exact exec_output_accepted ha (ioWrite_of_room hs hQ hroom a)

/-- Settles O39: the fetch and the destination are Input's first two checks, and only then is the source asked. -/
theorem inputTraps : Obligations.InputTraps := by
  refine fun s m1 => ⟨fun hnone => ?fetch, fun d hd hc => ?destination, fun d hd hc hs => ?exhausted⟩
  case fetch => exact exec_input_raises (inputDest_error.2 (.inl ⟨hnone, rfl⟩))
  case destination => exact exec_input_raises (inputDest_error.2 (.inr ⟨d, hd, cell_eq_none.1 hc, rfl⟩))
  case exhausted => exact exec_input_exhausted (inputDest_of_cell hd hc) hs

/-- Settles O45: a list has a head or is exhausted, and then Input's exception is the third of `inputTraps`. -/
theorem listSourceAnswers : Obligations.ListSourceAnswers := by
  intro s L hs
  refine ⟨?head, ?empty, ?answers, ?raises⟩
  case head =>
    rintro v vs rfl
    exact ioRead_of_list_cons hs
  case empty =>
    rintro rfl
    exact ioRead_exhausted.2 hs
  case answers =>
    intro hno
    obtain ⟨q, hq, _⟩ := ioRead_noAnswer hno
    simp [hs] at hq
  case raises =>
    rintro m1 d rfl hd hc
    obtain ⟨_, _, exhausted⟩ := inputTraps s m1
    exact ⟨_, exhausted d hd hc hs, rfl, rfl⟩

/-- Settles O40: Output raises where its one operand does. -/
theorem outputTraps : Obligations.OutputTraps := fun _ _ =>
  ⟨fun hnone => exec_output_raises (readParam_of_param_none hnone),
    fun _ hp hm hc => exec_output_raises (readParam_of_cell_none hp hm hc)⟩

/-! ## Waiting -/

/-- Settles O41: an empty queue gives no answer and a full one does not accept, and a held instruction answers the
state it began in. -/
theorem portWaits : Obligations.PortWaits := by
  refine fun s m1 q Q hQ => ⟨fun d hs hi hd hc => ?input, fun a c hs hc hle ha => ?output⟩
  case input =>
    have hheld : held (.input m1) s = true := held_input (inputDest_of_cell hd hc) (ioRead_of_queue_nil hs hQ hi)
    exact ⟨exec_of_held hheld, hheld⟩
  case output =>
    have hheld : held (.output m1) s = true :=
      held_output ha (ioWrite_of_full hs hQ (hasRoom_eq_false hc hle) a)
    exact ⟨exec_of_held hheld, hheld⟩

/-- Settles O13: a waiting machine runs its held instruction; in Running, not enabled and waiting are the same. -/
theorem waitingChangesNothing : Obligations.WaitingChangesNothing := by
  refine fun s => ⟨fun hw => ?_, fun hw => ?_, fun ⟨hr, he⟩ => ?_⟩
  · obtain ⟨hr, i, hi, hheld⟩ := waiting_iff.1 hw
    exact (step_eq_exec hr hi).trans (exec_of_held hheld)
  · obtain ⟨hr, _⟩ := waiting_iff.1 hw
    exact ⟨hr, by simp [State.enabled, hw]⟩
  · simpa [State.enabled, hr] using he

/-! ## What Input and Output leave unchanged -/

/-- A read transaction leaves the sink's side of the port and the fault record alone (R87, R89). -/
theorem ioRead_sink_mirror_faultInfo {s u : State} {v : Word} (h : ioRead s = .value v u) :
    u.sink = s.sink ∧ u.mirror = s.mirror ∧ u.faultInfo = s.faultInfo := by
  obtain ⟨_, rfl⟩ | ⟨vs, _, rfl⟩ | ⟨q, Q, vs, _, _, _, rfl⟩ := ioRead_value h <;> exact ⟨rfl, rfl, rfl⟩

/-- A read transaction leaves every queue but the source's (R94). -/
theorem ioRead_queue_of_ne {s u : State} {v : Word} {q : Nat} (h : ioRead s = .value v u)
    (hq : s.source ≠ .queue q) : u.queues[q]? = s.queues[q]? := by
  obtain ⟨_, rfl⟩ | ⟨vs, _, rfl⟩ | ⟨p, Q, vs, hs, _, _, rfl⟩ := ioRead_value h
  · rfl
  · rfl
  · exact List.getElem?_set_ne fun hpq : p = q => hq (hpq ▸ hs)

/-- A write transaction leaves the width, the source, the fault record and the caller's takes alone (R87, R90, R7). -/
theorem ioWrite_wordBits_source_faultInfo_taken {s u : State} {v : Word} (h : ioWrite s v = some u) :
    u.wordBits = s.wordBits ∧ u.source = s.source ∧ u.faultInfo = s.faultInfo ∧
      u.mirror.map Overflow.taken = s.mirror.map Overflow.taken := by
  have htaken : (s.mirror.map (·.push v)).map Overflow.taken = s.mirror.map Overflow.taken := Option.map_map ..
  obtain ⟨out, _, rfl⟩ | ⟨q, Q, _, _, _, rfl⟩ := ioWrite_some h <;> exact ⟨rfl, rfl, rfl, htaken⟩

/-- A write transaction leaves every queue but the sink's (R96). -/
theorem ioWrite_queue_of_ne {s u : State} {v : Word} {q : Nat} (h : ioWrite s v = some u)
    (hq : s.sink ≠ .queue q) : u.queues[q]? = s.queues[q]? := by
  obtain ⟨out, _, rfl⟩ | ⟨p, Q, hs, _, _, rfl⟩ := ioWrite_some h
  · rfl
  · exact List.getElem?_set_ne fun hpq : p = q => hq (hpq ▸ hs)

/-- The ways an Input ends: an exception, a wait, or its value stored. -/
theorem exec_input_cases {m1 : Mode} {s t : State} (h : exec (.input m1) s = .next t) :
    (∃ e, t = raise s e) ∨ t = s ∨ ∃ d v u, ioRead s = .value v u ∧ t = u.stored d v 2 := by
  obtain ⟨e, _, rfl⟩ | ⟨_, rfl⟩ | hran := exec_cases h
  · exact .inl ⟨e, rfl⟩
  · exact .inr (.inl rfl)
  · cases hran with
    | inputs _ _ hr => exact .inr (.inr ⟨_, _, _, hr, rfl⟩)
    | stores hi => cases hi
    | jumps hj | falls hj => obtain hj | hj := hj <;> cases hj

/-- The ways an Output ends: an exception, a wait, or its value accepted. -/
theorem exec_output_cases {m1 : Mode} {s t : State} (h : exec (.output m1) s = .next t) :
    (∃ e, t = raise s e) ∨ t = s ∨ ∃ a u, ioWrite s a = some u ∧ t = u.setPc (s.pc + 2) := by
  obtain ⟨e, _, rfl⟩ | ⟨_, rfl⟩ | hran := exec_cases h
  · exact .inl ⟨e, rfl⟩
  · exact .inr (.inl rfl)
  · cases hran with
    | outputs _ hw => exact .inr (.inr ⟨_, _, hw, rfl⟩)
    | stores hi => cases hi
    | jumps hj | falls hj => obtain hj | hj := hj <;> cases hj

/-- Settles O33: an exception or a wait leaves the port alone, an answered Input leaves what its transaction does. -/
theorem frameOfInput : Obligations.FrameOfInput := by
  intro s t m1 h
  have hreads : ∀ (a : Int) (g : AccessTag), s.param 1 ≠ some a → memRead t.mem a g = memRead s.mem a g :=
    fun a g ha => exec_memRead_of_ne_destAddr h ha g
  obtain ⟨e, rfl⟩ | rfl | ⟨d, v, u, hr, rfl⟩ := exec_input_cases h
  · exact ⟨rfl, rfl, rfl, fun _ _ => rfl, .inr ⟨rfl, rfl, rfl, rfl, rfl⟩, hreads⟩
  · exact ⟨rfl, rfl, rfl, fun _ _ => rfl, .inl ⟨rfl, rfl, rfl⟩, hreads⟩
  · obtain ⟨_, _, hbits⟩ := ioRead_frame hr
    obtain ⟨hsink, hmirror, hinfo⟩ := ioRead_sink_mirror_faultInfo hr
    have hqueues : ∀ q, s.source ≠ .queue q → u.queues[q]? = s.queues[q]? := fun _ => ioRead_queue_of_ne hr
    have hrun : u.runState = s.runState := ioRead_runState hr
    have hcause : u.faultCause = s.faultCause := ioRead_faultCause hr
    exact ⟨hbits, hsink, hmirror, hqueues, .inl ⟨hrun, hcause, hinfo⟩, hreads⟩

/-- Settles O34: an exception or a wait leaves the port alone, an accepted Output leaves what its transaction does, and
an Output has no destination in memory. -/
theorem frameOfOutput : Obligations.FrameOfOutput := by
  intro s t m1 h
  have hreads : ∀ (a : Int) (g : AccessTag), memRead t.mem a g = memRead s.mem a g :=
    fun a g => exec_memRead_of_ne_destAddr h (by simp [State.destAddr, Instr.destParam]) g
  obtain ⟨e, rfl⟩ | rfl | ⟨a, u, hw, rfl⟩ := exec_output_cases h
  · exact ⟨rfl, rfl, rfl, fun _ _ => rfl, .inr ⟨rfl, rfl, rfl, rfl, rfl⟩, hreads⟩
  · exact ⟨rfl, rfl, rfl, fun _ _ => rfl, .inl ⟨rfl, rfl, rfl⟩, hreads⟩
  · obtain ⟨hbits, hsource, hinfo, htaken⟩ := ioWrite_wordBits_source_faultInfo_taken hw
    have hqueues : ∀ q, s.sink ≠ .queue q → u.queues[q]? = s.queues[q]? := fun _ => ioWrite_queue_of_ne hw
    have hrun : u.runState = s.runState := ioWrite_runState hw
    have hcause : u.faultCause = s.faultCause := ioWrite_faultCause hw
    exact ⟨hbits, hsource, htaken, hqueues, .inl ⟨hrun, hcause, hinfo⟩, hreads⟩

end Sys2Proof.Machine
end

section
/-! PROOFS. Scope: the jumps and Halt. Where a jump goes, where its two operands and its target raise, and what the
jumps and Halt leave unchanged. -/

namespace Sys2Proof.Machine

/-! ## The execute phase of a jump, by how it ends (R102) -/

section
variable {taken : Word → Bool} {m1 m2 : Mode} {s : State} {a b : Word} {e : Exn}

/-- A taken jump with a valid target goes to it: the target is absolute. -/
theorem jumpWhen_taken (ha : s.operand 1 m1 = some a) (hb : s.operand 2 m2 = some b) (ht : taken a = true)
    (hv : validAddr s.mem b = true) : jumpWhen taken m1 m2 s = .next (s.setPc b.toNat) := by
  simp [jumpWhen, bind, Except.bind, pure, Except.pure, readParam_ok.2 ha, readParam_ok.2 hb, ht,
    checkAddr_ok (u := ()).2 hv]

/-- A jump that is not taken falls through, its target unchecked (decision D10). -/
theorem jumpWhen_falls (ha : s.operand 1 m1 = some a) (hb : s.operand 2 m2 = some b) (ht : taken a = false) :
    jumpWhen taken m1 m2 s = .next (s.setPc (s.pc + 3)) := by
  simp [jumpWhen, bind, Except.bind, pure, Except.pure, readParam_ok.2 ha, readParam_ok.2 hb, ht]

/-- An exception of the condition comes before everything else. -/
theorem jumpWhen_raises_condition (h1 : readParam s 1 m1 = .error e) :
    jumpWhen taken m1 m2 s = .next (raise s e) := by
  simp [jumpWhen, bind, Except.bind, h1]

/-- An exception of the target's operand comes next, taken or not. -/
theorem jumpWhen_raises_operand (ha : s.operand 1 m1 = some a) (h2 : readParam s 2 m2 = .error e) :
    jumpWhen taken m1 m2 s = .next (raise s e) := by
  simp [jumpWhen, bind, Except.bind, readParam_ok.2 ha, h2]

/-- A taken jump to an invalid target raises last (R126). -/
theorem jumpWhen_raises_target (ha : s.operand 1 m1 = some a) (hb : s.operand 2 m2 = some b) (ht : taken a = true)
    (hv : validAddr s.mem b = false) : jumpWhen taken m1 m2 s = .next (raise s (outOfBounds b .jump)) := by
  simp [jumpWhen, bind, Except.bind, readParam_ok.2 ha, readParam_ok.2 hb, ht, checkAddr_error.2 ⟨hv, rfl⟩]

end

/-! ## Where the jumps go and where they trap -/

/-- Settles O28: the jump is taken exactly when the condition is not 0. -/
theorem jumpIfTrueCompletes : Obligations.JumpIfTrueCompletes := by
  refine fun s m1 m2 a b ha hb => ⟨fun hne h0 hlt => ?taken, fun heq => ?falls⟩
  case taken => exact jumpWhen_taken ha hb (bne_iff_ne.2 hne) (validAddr_iff.2 ⟨h0, hlt⟩)
  case falls => exact jumpWhen_falls ha hb (bne_eq_false_iff_eq.2 heq)

/-- Settles O29: the jump is taken exactly when the condition is 0. -/
theorem jumpIfFalseCompletes : Obligations.JumpIfFalseCompletes := by
  refine fun s m1 m2 a b ha hb => ⟨fun heq h0 hlt => ?taken, fun hne => ?falls⟩
  case taken => exact jumpWhen_taken ha hb (beq_iff_eq.2 heq) (validAddr_iff.2 ⟨h0, hlt⟩)
  case falls => exact jumpWhen_falls ha hb (beq_eq_false_iff_ne.2 hne)

/-- The two jumps share one execute phase and differ in the condition that takes them (R100, R101). -/
theorem exec_eq_jumpWhen {i : Instr} {m1 m2 : Mode} (s : State)
    (hi : i = .jumpIfTrue m1 m2 ∨ i = .jumpIfFalse m1 m2) :
    ∃ taken, exec i s = jumpWhen taken m1 m2 s ∧
      ∀ a : Int, taken a = true ↔ if i = .jumpIfTrue m1 m2 then a ≠ 0 else a = 0 := by
  obtain rfl | rfl := hi
  · exact ⟨_, rfl, fun a => by simp⟩
  · exact ⟨_, rfl, fun a => by simp⟩

/-- Settles O38: one clause for each place where the shared execute phase can raise. -/
theorem jumpTraps : Obligations.JumpTraps := by
  intro s m1 m2 i hi
  obtain ⟨taken, hexec, htaken⟩ := exec_eq_jumpWhen s hi
  rw [hexec]
  refine ⟨?fetch1, ?load1, ?fetch2, ?load2, ?target⟩
  case fetch1 => exact fun h => jumpWhen_raises_condition (readParam_of_param_none h)
  case load1 => exact fun p hp hm hc => jumpWhen_raises_condition (readParam_of_cell_none hp hm hc)
  case fetch2 => exact fun a ha h => jumpWhen_raises_operand ha (readParam_of_param_none h)
  case load2 => exact fun a p ha hp hm hc => jumpWhen_raises_operand ha (readParam_of_cell_none hp hm hc)
  case target =>
    exact fun a b ha hb hc hcond => jumpWhen_raises_target ha hb ((htaken a).2 hcond) (cell_eq_none.1 hc)

/-! ## What the jumps and Halt leave unchanged -/

/-- A jump takes an exception or sets `pc`, and does nothing else (R102). -/
theorem exec_jump_cases {i : Instr} {m1 m2 : Mode} {s t : State}
    (hi : i = .jumpIfTrue m1 m2 ∨ i = .jumpIfFalse m1 m2) (h : exec i s = .next t) :
    (∃ e, t = raise s e) ∨ ∃ n, t = s.setPc n := by
  obtain ⟨taken, hexec, _⟩ := exec_eq_jumpWhen s hi
  obtain ⟨e, _, rfl⟩ | ⟨_, _, _, _, ⟨_, _, rfl⟩ | ⟨_, rfl⟩⟩ := jumpWhen_cases (hexec ▸ h)
  · exact .inl ⟨e, rfl⟩
  · exact .inr ⟨_, rfl⟩
  · exact .inr ⟨_, rfl⟩

/-- Settles O32: an exception touches the run state and the fault record only, a jump `pc` only, and Halt the run state
and `pc` only. -/
theorem frameOfControlOperations : Obligations.FrameOfControlOperations := by
  intro s t m1 m2 i hi h
  obtain hjump | rfl : (i = .jumpIfTrue m1 m2 ∨ i = .jumpIfFalse m1 m2) ∨ i = .halt := or_assoc.2 hi
  · have hne : i ≠ .halt := by obtain rfl | rfl := hjump <;> exact Instr.noConfusion
    obtain ⟨e, rfl⟩ | ⟨n, rfl⟩ := exec_jump_cases hjump h
    · exact ⟨rfl, rfl, rfl, rfl, rfl, fun _ _ => rfl, fun heq => absurd heq hne, fun _ => .inr ⟨rfl, rfl⟩⟩
    · exact ⟨rfl, rfl, rfl, rfl, rfl, fun _ _ => rfl, fun heq => absurd heq hne, fun _ => .inl ⟨rfl, rfl, rfl⟩⟩
  · obtain rfl := Host.Outcome.next.inj h
    exact ⟨rfl, rfl, rfl, rfl, rfl, fun _ _ => rfl, fun _ => ⟨rfl, rfl⟩, fun hne => absurd rfl hne⟩

end Sys2Proof.Machine
end

section
/-! PROOFS. Scope: LessThan and Equals. What each completes with, and that a comparison gives 1 or 0 and writes only its
destination. -/

namespace Sys2Proof.Machine

/-! ## Truth values as Words (R107) -/

theorem truthWord_eq_one {c : Bool} : truthWord c = 1 ↔ c = true := by
  cases c <;> decide

theorem truthWord_eq_zero {c : Bool} : truthWord c = 0 ↔ c = false := by
  cases c <;> decide

theorem truthWord_one_or_zero (c : Bool) : truthWord c = 1 ∨ truthWord c = 0 :=
  c.eq_false_or_eq_true.imp truthWord_eq_one.2 truthWord_eq_zero.2

/-! ## Completion with 1 or 0 -/

/-- A comparison stores the truth value of its relation, and needs no result to fit the width (R107). -/
theorem comparison_completes {holds : Word → Word → Bool} {m1 m2 : Mode} {s : State} {a b d v : Word}
    (ha : s.operand 1 m1 = some a) (hb : s.operand 2 m2 = some b) (hd : s.param 3 = some d) (h0 : 0 ≤ d)
    (hlt : d < s.mem.length) (hv : truthWord (holds a b) = v) :
    binaryToMemory (fun a b => .ok (truthWord (holds a b))) m1 m2 s = .next (s.stored d v 4) :=
  binaryToMemory_completes ha hb hd (congrArg Except.ok hv) (validAddr_iff.2 ⟨h0, hlt⟩)

/-- Settles O23: the relation is the strict order of the integers. -/
theorem lessThanCompletes : Obligations.LessThanCompletes := by
  refine fun s m1 m2 m3 a b d ha hb hd h0 hlt => ⟨fun hless => ?one, fun hle => ?zero⟩
  case one => exact comparison_completes ha hb hd h0 hlt (truthWord_eq_one.2 (decide_eq_true hless))
  case zero => exact comparison_completes ha hb hd h0 hlt (truthWord_eq_zero.2 (decide_eq_false (Int.not_lt.2 hle)))

/-- Settles O24: the relation is equality of the integers. -/
theorem equalsCompletes : Obligations.EqualsCompletes := by
  refine fun s m1 m2 m3 a b d ha hb hd h0 hlt => ⟨fun heq => ?one, fun hne => ?zero⟩
  case one => exact comparison_completes ha hb hd h0 hlt (truthWord_eq_one.2 (decide_eq_true heq))
  case zero => exact comparison_completes ha hb hd h0 hlt (truthWord_eq_zero.2 (decide_eq_false hne))

/-! ## What a completed comparison leaves -/

/-- The two comparisons share one execute phase and differ in the relation they decide (R105, R106). -/
theorem exec_eq_comparison {i : Instr} {m1 m2 m3 : Mode} (s : State)
    (hi : i = .lessThan m1 m2 m3 ∨ i = .equals m1 m2 m3) :
    ∃ holds : Word → Word → Bool, exec i s = binaryToMemory (fun a b => .ok (truthWord (holds a b))) m1 m2 s ∧
      ∀ a b : Int, holds a b = true ↔ if i = .lessThan m1 m2 m3 then a < b else a = b := by
  obtain rfl | rfl := hi
  · exact ⟨fun a b : Int => decide (a < b), rfl, fun a b => by simp⟩
  · exact ⟨fun a b : Int => decide (a = b), rfl, fun a b => by simp⟩

/-- Settles O25: a comparison that does not fault stores its truth value at its destination. -/
theorem comparisonGivesOneOrZero : Obligations.ComparisonGivesOneOrZero := by
  intro s t m1 m2 m3 i hi h hrun
  obtain ⟨holds, hexec, hholds⟩ := exec_eq_comparison s hi
  have hraises : ∀ a b e, Except.ok (truthWord (holds a b)) = .error e → Recorded s e := by
    intro a b e herr
    cases herr
  obtain ⟨e, _, rfl⟩ | ⟨a, b, d, v, ha, hb, hd, hc, hvalid, rfl⟩ := binaryToMemory_cases hraises (hexec ▸ h)
  · exact absurd rfl hrun
  · obtain rfl := Except.ok.inj hc
    have hdest : cell (s.stored d (truthWord (holds a b)) 4).mem d = some (truthWord (holds a b)) :=
      cell_set_self hvalid
    have hothers : ∀ x : Int, x ≠ d → cell (s.stored d (truthWord (holds a b)) 4).mem x = cell s.mem x :=
      fun x hx => cell_set_ne (validAddr_iff.1 hvalid).1 hx
    refine ⟨a, b, d, ha, hb, hd, ?oneOrZero, ?oneExactly, hothers⟩
    case oneOrZero => simpa only [hdest, Option.some_inj] using truthWord_one_or_zero (holds a b)
    case oneExactly => rw [hdest, Option.some_inj, truthWord_eq_one, hholds]

end Sys2Proof.Machine
end

section
/-! PROOFS. Scope: Halt. -/

namespace Sys2Proof.Machine

/-- Settles O30: Halt has no parameter and no check, so its execute phase is one unconditional update of the state
(R110). -/
theorem haltCompletes : Obligations.HaltCompletes := fun _ => rfl

end Sys2Proof.Machine
end

section
/-! PROOFS. Scope: exceptions and several interpreters. What an exception changes, what the launched ring holds, and
what the result of a pipeline run is. -/

namespace Sys2Proof.Machine

/-! ## Exceptions -/

/-- Settles O14: an exception is taken at the state the step began in, with a record that `step_faulted` carries. -/
theorem faultsArePrecise : Obligations.FaultsArePrecise := by
  intro s t h ht
  obtain ⟨e, he, rfl⟩ := step_faulted h ht
  exact ⟨e.kind, e.info, rfl, he⟩

/-! ## The launched ring (R136 to R138) -/

@[simp] theorem ringQueues_length (cap : Option Nat) (phases : List Word) :
    (ringQueues cap phases).length = phases.length := by
  cases phases <;> simp [ringQueues]

/-- Queue `i` is seeded from phase `i`: only queue 0 gets the driving value too (R138). -/
theorem ringQueues_getElem? (cap : Option Nat) (phases : List Word) (i : Nat) :
    (ringQueues cap phases)[i]? = phases[i]?.map fun p => ⟨if i = 0 then [p, 0] else [p], cap⟩ := by
  cases phases with
  | nil => rfl
  | cons p ps => cases i <;> simp [ringQueues]

section
variable {program phases : List Word} {cap bits : Option Nat}

/-- The interpreters of a ring are the ones of R137, one for each number below the number of phases. -/
theorem ring_insts_getElem?_eq_some {i : Nat} {c : Interp} :
    (System.ring program phases cap bits).insts[i]? = some c ↔
      i < phases.length ∧ c = ringInterp program bits phases.length i := by
  by_cases hi : i < phases.length <;> simp [System.ring, hi, eq_comm]

theorem ring_sourceAt {i q : Nat} (h : (System.ring program phases cap bits).sourceAt i = some (.queue q)) :
    q = i := by
  obtain ⟨c, hc, hsource⟩ := Option.map_eq_some_iff.1 h
  obtain ⟨_, rfl⟩ := ring_insts_getElem?_eq_some.1 hc
  exact (Source.queue.inj hsource).symm

theorem ring_sinkAt {i q : Nat} (h : (System.ring program phases cap bits).sinkAt i = some (.queue q)) :
    i < phases.length ∧ q = (i + 1) % phases.length := by
  obtain ⟨c, hc, hsink⟩ := Option.map_eq_some_iff.1 h
  obtain ⟨hi, rfl⟩ := ring_insts_getElem?_eq_some.1 hc
  exact ⟨hi, (Sink.queue.inj hsink).symm⟩

/-- The next interpreter round the ring is a different one for each. -/
theorem succ_mod_injective {n i j : Nat} (hi : i < n) (hj : j < n) (h : (i + 1) % n = (j + 1) % n) : i = j :=
  Nat.ModEq.eq_of_lt_of_lt (Nat.ModEq.add_right_cancel' 1 h) hi hj

/-- A seeded queue holds representable Words and has room for the two of queue 0. -/
theorem ringQueues_wf (h0 : fitsWord bits 0 = true) (hphases : ∀ p ∈ phases, fitsWord bits p = true)
    (hcap : ∀ c, cap = some c → 2 ≤ c) : ∀ Q ∈ ringQueues cap phases, Q.wf bits = true := by
  intro Q hQ
  obtain ⟨i, hi⟩ := List.mem_iff_getElem?.1 hQ
  rw [ringQueues_getElem?] at hi
  obtain ⟨p, hp, rfl⟩ := Option.map_eq_some_iff.1 hi
  have hfit : fitsWord bits p = true := hphases p (List.mem_of_getElem? hp)
  refine queue_wf_iff.2 ⟨?words, fun c hc => ?room⟩
  case words => by_cases hzero : i = 0 <;> simp [hzero, hfit, h0]
  case room =>
    have hroom : 2 ≤ c := hcap c hc
    by_cases hzero : i = 0 <;> simp [hzero] <;> omega

/-- Each interpreter of a ring is constructed from arguments that fit and are wired, so it meets the invariant. -/
theorem ringInterp_inv {i : Nat} (hwidth : widthOk bits = true) (hprogram : program.all (fitsWord bits) = true)
    (hqueues : ∀ Q ∈ ringQueues cap phases, Q.wf bits = true) (hi : i < phases.length) :
    State.Inv ⟨ringInterp program bits phases.length i, ringQueues cap phases⟩ := by
  have hmirror : (if i + 1 = phases.length then some (⟨[], 0⟩ : Overflow) else none).all (Overflow.wf bits) = true := by
    split <;> rfl
  have hsource : (Source.queue i).wired (ringQueues cap phases).length = true := by
    simpa [Source.wired] using hi
  have hsink : (Sink.queue ((i + 1) % phases.length)).wired (ringQueues cap phases).length = true := by
    simpa [Sink.wired] using Nat.mod_lt _ (Nat.zero_lt_of_lt hi)
  exact construct_inv hwidth hprogram rfl rfl hmirror hqueues hsource hsink

end

/-- Settles O49: interpreter `i` is constructed from the arguments of R137, and queue `i` is seeded from phase `i`. -/
theorem ringIsWiredAndSeeded : Obligations.RingIsWiredAndSeeded := by
  intro program phases cap bits
  refine ⟨by simp [System.ring], ringQueues_length cap phases, fun i p hp => ⟨?queue, ?interpreter⟩⟩
  case queue => exact (ringQueues_getElem? cap phases i).trans (by rw [hp]; rfl)
  case interpreter =>
    have hi : i < phases.length := (List.getElem?_eq_some_iff.1 hp).1
    exact ⟨_, ring_insts_getElem?_eq_some.2 ⟨hi, rfl⟩, rfl, rfl, rfl, rfl, rfl, rfl, rfl, rfl, rfl⟩

/-- Settles O50: interpreter `i` alone reads queue `i` and alone writes the queue after it, and each is constructed over
well-formed queues. The driving value 0 fits every width that holds the truth values. -/
theorem ringMeetsTheInvariant : Obligations.RingMeetsTheInvariant := by
  intro program phases cap bits hwidth hprogram hphases hcap
  have hqueues : ∀ Q ∈ ringQueues cap phases, Q.wf bits = true :=
    ringQueues_wf (fitsWord_truthWord hwidth false) (List.all_eq_true.1 hphases) hcap
  refine ⟨fun i j q hi hj => ?oneReader, fun i j q hi hj => ?oneWriter, fun c hc d hd => ?oneWidth, fun i s hs => ?each⟩
  case oneReader => exact (ring_sourceAt hi).symm.trans (ring_sourceAt hj)
  case oneWriter =>
    obtain ⟨hi, hqi⟩ := ring_sinkAt hi
    obtain ⟨hj, hqj⟩ := ring_sinkAt hj
    exact succ_mod_injective hi hj (hqi.symm.trans hqj)
  case oneWidth =>
    have width : ∀ e ∈ (System.ring program phases cap bits).insts, e.wordBits = bits := by
      intro e he
      obtain ⟨i, hi⟩ := List.mem_iff_getElem?.1 he
      obtain ⟨_, rfl⟩ := ring_insts_getElem?_eq_some.1 hi
      rfl
    rw [width c hc, width d hd]
  case each =>
    obtain ⟨hc, hqs⟩ := view_iff.1 hs
    obtain ⟨hi, he⟩ := ring_insts_getElem?_eq_some.1 hc
    cases s; cases he; cases hqs
    exact ringInterp_inv hwidth hprogram hqueues hi

/-! ## The result of a pipeline run (R141, R161) -/

theorem ended_iff {y : System} : y.ended = true ↔ ∀ c ∈ y.insts, c.runState = .halted := by
  simp [System.ended]

theorem result_eq_some_iff {y : System} {v : Word} :
    y.result = some v ↔ y.ended = true ∧
      ∃ c o, y.insts.getLast? = some c ∧ c.mirror = some o ∧ o.log.getLast? = some v := by
  unfold System.result
  cases y.ended <;> simp [Option.bind_eq_some_iff]

/-- Settles O56: the last entries of the two lists are read where the lists are split before them. -/
theorem resultIsTheLastMirroredValue : Obligations.ResultIsTheLastMirroredValue := by
  intro y v
  rw [result_eq_some_iff, ended_iff]
  refine and_congr_right fun _ => ⟨?split, ?last⟩
  case split =>
    rintro ⟨c, ⟨out, n⟩, hc, hmirror, hlog⟩
    obtain ⟨cs, hcs⟩ := List.getLast?_eq_some_iff.1 hc
    obtain ⟨log, rfl⟩ := List.getLast?_eq_some_iff.1 hlog
    exact ⟨cs, c, log, n, hcs, hmirror⟩
  case last =>
    rintro ⟨cs, c, log, n, hcs, hmirror⟩
    exact ⟨c, _, List.getLast?_eq_some_iff.2 ⟨cs, hcs⟩, hmirror, List.getLast?_eq_some_iff.2 ⟨log, rfl⟩⟩

end Sys2Proof.Machine
end
